-- ==== Sys2Proof/Word.lean ====
section
/-! DEFINITION. The widths of the machine (spec/00_scope.md R6, R7): bytes, 64-bit words, 160-bit head words. -/

namespace Sys2Proof

/-- An 8-bit value: the payload of a raw data byte (R27). -/
abbrev Byte := BitVec 8

/-- A 64-bit value: every register, immediate, address and data word (R6, `XLEN` = 64; R7). -/
abbrev Word := BitVec 64

/-- The 160-bit packed form of a decoded instruction that a head cell holds (R61). -/
abbrev HeadWord := BitVec 160

end Sys2Proof
end

