-- ==== Sys2Proof/Syntax.lean ====
section
/-! DEFINITION. The instructions as syntax: registers, conditions, operands, the abstract instruction value of
spec/30_encoding.md R60, and `Instr`, one constructor for each row of spec/opcode_table.json. -/

namespace Sys2Proof

/-- The 17 slots of the register file, in index order (spec/10_state.md R20). -/
inductive Reg where
  | rax | rbx | rcx | rdx | rsi | rdi | rbp | rsp
  | r08 | r09 | r10 | r11 | r12 | r13 | r14 | r15
  | rip
deriving DecidableEq, Repr

/-- The six condition codes (R60, R64). -/
inductive Cond where
  | eq | neq | gt | ge | lt | le
deriving DecidableEq, Repr

/-- The three indirect operand kinds (R60): `Ind1(i)`, `Ind2(r)` and `Ind3(i, r)`. -/
inductive Indirect where
  | ind1 (i : Word)
  | ind2 (r : Reg)
  | ind3 (i : Word) (r : Reg)
deriving DecidableEq, Repr

/-- The five operand kinds (R60, R65); the three indirect ones stand under `ind`. -/
inductive Operand where
  | imm (i : Word)
  | reg (r : Reg)
  | ind (m : Indirect)
deriving DecidableEq, Repr

/-- The opcodes of R60 and R63. `setcc` and `jcc` carry their condition code. -/
inductive Opcode where
  | incq | decq | negq | addq | subq | imulq
  | notq | andq | orq | xorq
  | sarq | shlq | shrq
  | cmpq | movq | leaq | setcc (c : Cond)
  | pushq | popq | jmp | callq | retq | jcc (c : Cond)
deriving DecidableEq, Repr

/-- The abstract instruction value of R60: an opcode and an ordered list of operands, of any length. -/
structure AbsInstr where
  op : Opcode
  operands : List Operand
deriving DecidableEq, Repr

/-- An instruction: one constructor for each row of the opcode table, with the operands of its row in order.
In a two-operand instruction the first is the source and the second the destination (R67). -/
inductive Instr where
  | incq (dst : Operand)
  | decq (dst : Operand)
  | negq (dst : Operand)
  | addq (src dst : Operand)
  | subq (src dst : Operand)
  | imulq (src dst : Operand)
  | notq (dst : Operand)
  | andq (src dst : Operand)
  | orq (src dst : Operand)
  | xorq (src dst : Operand)
  | sarq (amt dst : Operand)
  | shlq (amt dst : Operand)
  | shrq (amt dst : Operand)
  | cmpq (src dst : Operand)
  | movq (src dst : Operand)
  | leaq (mem dst : Operand)
  | sete (dst : Operand)
  | setne (dst : Operand)
  | setg (dst : Operand)
  | setge (dst : Operand)
  | setl (dst : Operand)
  | setle (dst : Operand)
  | pushq (src : Operand)
  | popq (dst : Operand)
  | jmp (tgt : Operand)
  | callq (tgt : Operand)
  | retq
  | je (tgt : Operand)
  | jne (tgt : Operand)
  | jg (tgt : Operand)
  | jge (tgt : Operand)
  | jl (tgt : Operand)
  | jle (tgt : Operand)
deriving DecidableEq, Repr

end Sys2Proof
end

