-- ==== Sys2Proof/WellFormed.lean ====
section
/-! DEFINITION. Well-formedness: the allowed operand kinds of each instruction, as the table of spec/30_encoding.md R72
lists them. An instruction that is not well formed raises a malformed-operand fault. -/

namespace Sys2Proof

/-- No register of the operand is `rip` (R72, cause 1). -/
def Indirect.noRip : Indirect → Bool
  | .ind1 _ => true
  | .ind2 r => r != .rip
  | .ind3 _ r => r != .rip

/-- R72 "source: any kind". -/
def Operand.anySource : Operand → Bool
  | .imm _ => true
  | .reg r => r != .rip
  | .ind m => m.noRip

/-- R72 "destination: Reg, Ind1, Ind2, Ind3". -/
def Operand.destination : Operand → Bool
  | .imm _ => false
  | .reg r => r != .rip
  | .ind m => m.noRip

/-- R72, LEAQ operand 0: "Ind1, Ind2, Ind3". -/
def Operand.indirectSource : Operand → Bool
  | .imm _ => false
  | .reg _ => false
  | .ind m => m.noRip

/-- R72, operand 0 of a shift: "Imm, or Reg with index 2 (`rcx`)". -/
def Operand.shiftAmount : Operand → Bool
  | .imm _ => true
  | .reg r => r == .rcx
  | .ind _ => false

/-- The table of R72, a line for each row of the opcode table. -/
def Instr.wellFormed : Instr → Bool
  | .incq d => d.destination
  | .decq d => d.destination
  | .negq d => d.destination
  | .addq s d => s.anySource && d.destination
  | .subq s d => s.anySource && d.destination
  | .imulq s d => s.anySource && d.destination
  | .notq d => d.destination
  | .andq s d => s.anySource && d.destination
  | .orq s d => s.anySource && d.destination
  | .xorq s d => s.anySource && d.destination
  | .sarq a d => a.shiftAmount && d.destination
  | .shlq a d => a.shiftAmount && d.destination
  | .shrq a d => a.shiftAmount && d.destination
  | .cmpq s d => s.anySource && d.anySource
  | .movq s d => s.anySource && d.destination
  | .leaq m d => m.indirectSource && d.destination
  | .sete d => d.destination
  | .setne d => d.destination
  | .setg d => d.destination
  | .setge d => d.destination
  | .setl d => d.destination
  | .setle d => d.destination
  | .pushq s => s.anySource
  | .popq d => d.destination
  | .jmp t => t.anySource
  | .callq t => t.anySource
  | .retq => true
  | .je t => t.anySource
  | .jne t => t.anySource
  | .jg t => t.anySource
  | .jge t => t.anySource
  | .jl t => t.anySource
  | .jle t => t.anySource

end Sys2Proof
end

