-- ==== Sys2Proof/Decode.lean ====
section
/-! DEFINITION. The head word of spec/30_encoding.md: its fields (R61), the numbers of registers, opcodes, conditions and
operand kinds (R62 to R65), the decoder (R68), and the encoder written from the same tables (R61, R69). -/

namespace Sys2Proof

/-! ## Numbers -/

/-- R20: the index of a register. -/
def Reg.index : Reg → BitVec 5
  | .rax => 0 | .rbx => 1 | .rcx => 2 | .rdx => 3 | .rsi => 4 | .rdi => 5 | .rbp => 6 | .rsp => 7
  | .r08 => 8 | .r09 => 9 | .r10 => 10 | .r11 => 11 | .r12 => 12 | .r13 => 13 | .r14 => 14 | .r15 => 15
  | .rip => 16

/-- R62: the register a 5-bit index names; 17 to 31 name none. -/
def Reg.ofIndex (n : BitVec 5) : Option Reg :=
  match n.toNat with
  | 0 => some .rax | 1 => some .rbx | 2 => some .rcx | 3 => some .rdx
  | 4 => some .rsi | 5 => some .rdi | 6 => some .rbp | 7 => some .rsp
  | 8 => some .r08 | 9 => some .r09 | 10 => some .r10 | 11 => some .r11
  | 12 => some .r12 | 13 => some .r13 | 14 => some .r14 | 15 => some .r15
  | 16 => some .rip
  | _ => none

/-- R64: the number of a condition code. -/
def Cond.num : Cond → BitVec 3
  | .eq => 0 | .neq => 1 | .gt => 2 | .ge => 3 | .lt => 4 | .le => 5

/-- R64: 6 and 7 are reserved. -/
def Cond.ofNum (n : BitVec 3) : Option Cond :=
  match n.toNat with
  | 0 => some .eq | 1 => some .neq | 2 => some .gt | 3 => some .ge | 4 => some .lt | 5 => some .le
  | _ => none

/-- R63: the `OPC` column. -/
def Opcode.num : Opcode → BitVec 8
  | .incq => 0x01 | .decq => 0x02 | .negq => 0x03 | .addq => 0x04 | .subq => 0x05 | .imulq => 0x06
  | .notq => 0x07 | .andq => 0x08 | .orq => 0x09 | .xorq => 0x0A
  | .sarq => 0x0B | .shlq => 0x0C | .shrq => 0x0D
  | .cmpq => 0x0E | .movq => 0x0F | .leaq => 0x10 | .setcc _ => 0x11
  | .pushq => 0x12 | .popq => 0x13 | .jmp => 0x14 | .callq => 0x15 | .retq => 0x16 | .jcc _ => 0x17

/-- R61: the `CC` field, the condition code of SETcc and Jcc and 0 for every other opcode. -/
def Opcode.ccNum : Opcode → BitVec 3
  | .setcc c => c.num
  | .jcc c => c.num
  | _ => 0

/-- R63: the `NOPS` column. -/
def Opcode.nops : Opcode → Nat
  | .retq => 0
  | .incq | .decq | .negq | .notq | .setcc _ | .pushq | .popq | .jmp | .callq | .jcc _ => 1
  | .addq | .subq | .imulq | .andq | .orq | .xorq | .sarq | .shlq | .shrq | .cmpq | .movq | .leaq => 2

/-! ## Fields -/

/-- R62: an operand descriptor, (kind, register, immediate). -/
structure Descriptor where
  kind : BitVec 3
  reg : BitVec 5
  imm : Word
deriving DecidableEq, Repr

/-- The fields of the head word (R61). -/
structure HeadFields where
  opc : BitVec 8
  cc : BitVec 3
  nops : BitVec 2
  reserved : BitVec 3
  a : Descriptor
  b : Descriptor
deriving DecidableEq, Repr

/-- R61: `OPC` = `w[7:0]`. -/
def HeadWord.opc (w : HeadWord) : Byte := w.extractLsb' 0 8

/-- R61: the fields of a head word. -/
def unpack (w : HeadWord) : HeadFields where
  opc := HeadWord.opc w
  cc := w.extractLsb' 8 3
  nops := w.extractLsb' 11 2
  reserved := w.extractLsb' 13 3
  a := { kind := w.extractLsb' 16 3, reg := w.extractLsb' 19 5, imm := w.extractLsb' 32 64 }
  b := { kind := w.extractLsb' 24 3, reg := w.extractLsb' 27 5, imm := w.extractLsb' 96 64 }

/-- R61: the head word with these fields, the highest field first. -/
def pack (h : HeadFields) : HeadWord :=
  (h.b.imm ++ h.a.imm ++ h.b.reg ++ h.b.kind ++ h.a.reg ++ h.a.kind ++ h.reserved ++ h.nops ++ h.cc ++ h.opc :)

/-! ## Decoding -/

/-- The six decode faults, in the order of R68; the cause codes are those of spec/60_exceptions.md R160. -/
inductive DecodeFault where
  | reservedBits
  | reservedOpcode
  | conditionCode
  | operandCount
  | operandKind
  | registerIndex
deriving DecidableEq, Repr

/-- R68: an opcode that takes no condition code needs `CC` = 0. -/
def plainOpcode (op : Opcode) (cc : BitVec 3) : Except DecodeFault Opcode :=
  if cc = 0 then .ok op else .error .conditionCode

/-- R68: an opcode that takes a condition code needs `CC` at most 5. -/
def condOpcode (op : Cond → Opcode) (cc : BitVec 3) : Except DecodeFault Opcode :=
  match Cond.ofNum cc with
  | some c => .ok (op c)
  | none => .error .conditionCode

/-- R63, R68: the opcode of the `OPC` and `CC` fields; 0x00 and 0x18 to 0xFF are reserved. -/
def opcodeOf (opc : BitVec 8) (cc : BitVec 3) : Except DecodeFault Opcode :=
  match opc.toNat with
  | 0x01 => plainOpcode .incq cc
  | 0x02 => plainOpcode .decq cc
  | 0x03 => plainOpcode .negq cc
  | 0x04 => plainOpcode .addq cc
  | 0x05 => plainOpcode .subq cc
  | 0x06 => plainOpcode .imulq cc
  | 0x07 => plainOpcode .notq cc
  | 0x08 => plainOpcode .andq cc
  | 0x09 => plainOpcode .orq cc
  | 0x0A => plainOpcode .xorq cc
  | 0x0B => plainOpcode .sarq cc
  | 0x0C => plainOpcode .shlq cc
  | 0x0D => plainOpcode .shrq cc
  | 0x0E => plainOpcode .cmpq cc
  | 0x0F => plainOpcode .movq cc
  | 0x10 => plainOpcode .leaq cc
  | 0x11 => condOpcode .setcc cc
  | 0x12 => plainOpcode .pushq cc
  | 0x13 => plainOpcode .popq cc
  | 0x14 => plainOpcode .jmp cc
  | 0x15 => plainOpcode .callq cc
  | 0x16 => plainOpcode .retq cc
  | 0x17 => condOpcode .jcc cc
  | _ => .error .reservedOpcode

/-- R65, R68: the operand of a descriptor; the kind is checked before the register index, and a field the kind does not
use is ignored (R69). -/
def decodeOperand (d : Descriptor) : Except DecodeFault Operand :=
  match d.kind.toNat with
  | 0 => .ok (.imm d.imm)
  | 1 => match Reg.ofIndex d.reg with
    | some r => .ok (.reg r)
    | none => .error .registerIndex
  | 2 => .ok (.ind (.ind1 d.imm))
  | 3 => match Reg.ofIndex d.reg with
    | some r => .ok (.ind (.ind2 r))
    | none => .error .registerIndex
  | 4 => match Reg.ofIndex d.reg with
    | some r => .ok (.ind (.ind3 d.imm r))
    | none => .error .registerIndex
  | _ => .error .operandKind

/-- R68: the operands of an instruction that has `n` of them, operand 0 first. -/
def decodeOperands (h : HeadFields) : Nat → Except DecodeFault (List Operand)
  | 0 => .ok []
  | 1 => match decodeOperand h.a with
    | .ok a => .ok [a]
    | .error e => .error e
  | _ => match decodeOperand h.a with
    | .ok a => match decodeOperand h.b with
      | .ok b => .ok [a, b]
      | .error e => .error e
    | .error e => .error e

/-- The instruction of an abstract value, if it has its opcode's number of operands (R63). -/
def AbsInstr.toInstr : AbsInstr → Option Instr
  | ⟨.incq, [d]⟩ => some (.incq d)
  | ⟨.decq, [d]⟩ => some (.decq d)
  | ⟨.negq, [d]⟩ => some (.negq d)
  | ⟨.addq, [s, d]⟩ => some (.addq s d)
  | ⟨.subq, [s, d]⟩ => some (.subq s d)
  | ⟨.imulq, [s, d]⟩ => some (.imulq s d)
  | ⟨.notq, [d]⟩ => some (.notq d)
  | ⟨.andq, [s, d]⟩ => some (.andq s d)
  | ⟨.orq, [s, d]⟩ => some (.orq s d)
  | ⟨.xorq, [s, d]⟩ => some (.xorq s d)
  | ⟨.sarq, [a, d]⟩ => some (.sarq a d)
  | ⟨.shlq, [a, d]⟩ => some (.shlq a d)
  | ⟨.shrq, [a, d]⟩ => some (.shrq a d)
  | ⟨.cmpq, [s, d]⟩ => some (.cmpq s d)
  | ⟨.movq, [s, d]⟩ => some (.movq s d)
  | ⟨.leaq, [m, d]⟩ => some (.leaq m d)
  | ⟨.setcc .eq, [d]⟩ => some (.sete d)
  | ⟨.setcc .neq, [d]⟩ => some (.setne d)
  | ⟨.setcc .gt, [d]⟩ => some (.setg d)
  | ⟨.setcc .ge, [d]⟩ => some (.setge d)
  | ⟨.setcc .lt, [d]⟩ => some (.setl d)
  | ⟨.setcc .le, [d]⟩ => some (.setle d)
  | ⟨.pushq, [s]⟩ => some (.pushq s)
  | ⟨.popq, [d]⟩ => some (.popq d)
  | ⟨.jmp, [t]⟩ => some (.jmp t)
  | ⟨.callq, [t]⟩ => some (.callq t)
  | ⟨.retq, []⟩ => some .retq
  | ⟨.jcc .eq, [t]⟩ => some (.je t)
  | ⟨.jcc .neq, [t]⟩ => some (.jne t)
  | ⟨.jcc .gt, [t]⟩ => some (.jg t)
  | ⟨.jcc .ge, [t]⟩ => some (.jge t)
  | ⟨.jcc .lt, [t]⟩ => some (.jl t)
  | ⟨.jcc .le, [t]⟩ => some (.jle t)
  | _ => none

/-- R60: the abstract value of an instruction. -/
def Instr.abs : Instr → AbsInstr
  | .incq d => ⟨.incq, [d]⟩
  | .decq d => ⟨.decq, [d]⟩
  | .negq d => ⟨.negq, [d]⟩
  | .addq s d => ⟨.addq, [s, d]⟩
  | .subq s d => ⟨.subq, [s, d]⟩
  | .imulq s d => ⟨.imulq, [s, d]⟩
  | .notq d => ⟨.notq, [d]⟩
  | .andq s d => ⟨.andq, [s, d]⟩
  | .orq s d => ⟨.orq, [s, d]⟩
  | .xorq s d => ⟨.xorq, [s, d]⟩
  | .sarq a d => ⟨.sarq, [a, d]⟩
  | .shlq a d => ⟨.shlq, [a, d]⟩
  | .shrq a d => ⟨.shrq, [a, d]⟩
  | .cmpq s d => ⟨.cmpq, [s, d]⟩
  | .movq s d => ⟨.movq, [s, d]⟩
  | .leaq m d => ⟨.leaq, [m, d]⟩
  | .sete d => ⟨.setcc .eq, [d]⟩
  | .setne d => ⟨.setcc .neq, [d]⟩
  | .setg d => ⟨.setcc .gt, [d]⟩
  | .setge d => ⟨.setcc .ge, [d]⟩
  | .setl d => ⟨.setcc .lt, [d]⟩
  | .setle d => ⟨.setcc .le, [d]⟩
  | .pushq s => ⟨.pushq, [s]⟩
  | .popq d => ⟨.popq, [d]⟩
  | .jmp t => ⟨.jmp, [t]⟩
  | .callq t => ⟨.callq, [t]⟩
  | .retq => ⟨.retq, []⟩
  | .je t => ⟨.jcc .eq, [t]⟩
  | .jne t => ⟨.jcc .neq, [t]⟩
  | .jg t => ⟨.jcc .gt, [t]⟩
  | .jge t => ⟨.jcc .ge, [t]⟩
  | .jl t => ⟨.jcc .lt, [t]⟩
  | .jle t => ⟨.jcc .le, [t]⟩

/-- R68 over the fields: the checks in their order, the first that fails is reported. -/
def decodeFields (h : HeadFields) : Except DecodeFault Instr :=
  if h.reserved ≠ 0 then .error .reservedBits
  else match opcodeOf h.opc h.cc with
    | .error e => .error e
    | .ok op =>
      if h.nops.toNat ≠ op.nops then .error .operandCount
      else match decodeOperands h op.nops with
        | .error e => .error e
        | .ok ops => match (AbsInstr.mk op ops).toInstr with
          | some i => .ok i
          | none => .error .operandCount

/-- R68: `Decode(w)`, total on every head word; a word it rejects is rejected by name. -/
def decode (w : HeadWord) : Except DecodeFault Instr := decodeFields (unpack w)

/-! ## Encoding -/

/-- R65: the canonical descriptor of an operand; the fields its kind does not use are 0 (R69). -/
def encodeOperand : Operand → Descriptor
  | .imm i => ⟨0, 0, i⟩
  | .reg r => ⟨1, r.index, 0⟩
  | .ind (.ind1 i) => ⟨2, 0, i⟩
  | .ind (.ind2 r) => ⟨3, r.index, 0⟩
  | .ind (.ind3 i r) => ⟨4, r.index, i⟩

/-- R69: an unused descriptor of a canonical word is 0. -/
def Descriptor.zero : Descriptor := ⟨0, 0, 0⟩

/-- R61: `NOPS`; 3 means "three or more". -/
def nopsField (n : Nat) : BitVec 2 := BitVec.ofNat 2 (min n 3)

/-- R61: the fields of an abstract value. Operands after the second are not kept. -/
def AbsInstr.fields (x : AbsInstr) : HeadFields where
  opc := x.op.num
  cc := x.op.ccNum
  nops := nopsField x.operands.length
  reserved := 0
  a := match x.operands with
    | a :: _ => encodeOperand a
    | [] => .zero
  b := match x.operands with
    | _ :: b :: _ => encodeOperand b
    | _ => .zero

/-- R61, R194: the head word of an abstract instruction value. -/
def AbsInstr.encode (x : AbsInstr) : HeadWord := pack x.fields

/-- R61: the canonical head word of an instruction. -/
def encode (i : Instr) : HeadWord := i.abs.encode

/-- R69: the fields of a used descriptor that its kind ignores are 0. -/
def Descriptor.canonical (d : Descriptor) : Bool :=
  match d.kind.toNat with
  | 0 => d.reg == 0
  | 1 => d.imm == 0
  | 2 => d.reg == 0
  | 3 => d.imm == 0
  | _ => true

/-- R69: a canonical head word has every ignored field 0. -/
def HeadWord.canonical (w : HeadWord) : Bool :=
  let h := unpack w
  match h.nops.toNat with
  | 0 => h.a == .zero && h.b == .zero
  | 1 => h.a.canonical && h.b == .zero
  | _ => h.a.canonical && h.b.canonical

/-- R194: the cells of one instruction hold its head word in the first and fillers in the rest; this is the word that a
table row of `nbits` bits stands for, every higher bit 0. -/
def tableWord (nbits w : Nat) : HeadWord := BitVec.ofNat 160 (w % 2 ^ nbits)

/-- The instruction the decoder reads from an instruction whose bits are `w`, bit 0 of `w` being `w[0]` of R61. -/
def decodeTableWord (nbits w : Nat) : Option Instr :=
  match decode (tableWord nbits w) with
  | .ok i => some i
  | .error _ => none

end Sys2Proof
end

