-- ==== Sys2Proof/Config.lean ====
section
/-! DEFINITION. The implementation parameters of spec/00_scope.md R6, each an argument of the model with the default
the spec gives, and the one free value of the model. -/

namespace Sys2Proof

/-- What a data read of a cell holding an instruction head or a filler does (R6, R42, D10). -/
inductive InsnCellRead where
  | fault
  | zero
deriving DecidableEq, Repr

/-- The parameters of R6 that the engine and the loader read, with their defaults.
The values of `memBot` and `haltAddr` are the spec's defaults from general knowledge (log entry 3, PRESUMED). -/
structure Params where
  /-- `MEM_BOT`, the lower bound of the window. -/
  memBot : Nat := 0x400000
  /-- `MEM_SIZE`, the number of cells. -/
  memSize : Nat := 0x10000
  /-- `HALT_ADDR`, the halt sentinel. -/
  haltAddr : Word := 0xFDEAD
  /-- `INSN_CELL_READ`. -/
  insnCellRead : InsnCellRead := .fault
  /-- `LT_GATED_BY_ZF`. -/
  ltGatedByZf : Bool := false
deriving DecidableEq, Repr

/-- R6: `MEM_TOP` = `MEM_BOT + MEM_SIZE`; the window is `[MEM_BOT, MEM_TOP)`. -/
def Params.memTop (p : Params) : Nat := p.memBot + p.memSize

/-- The constraints of R6 (`MEM_BOT` a multiple of 8, `HALT_ADDR` outside the window), and those that let the
window exist in a 64-bit address space and hold the 8-byte sentinel word at an 8-byte-aligned place
(R31, R181; log entry 4, DESIGN CHOICE). -/
def Params.ok (p : Params) : Bool :=
  p.memBot % 8 == 0 && p.memSize % 8 == 0 && decide (8 ≤ p.memSize) && decide (p.memTop ≤ 2 ^ 64) &&
    (decide (p.haltAddr.toNat < p.memBot) || decide (p.memTop ≤ p.haltAddr.toNat))

/-- R6: the default parameters. -/
def Params.default : Params := {}

/-- R6: `INS_SIZE`, the number of cells of every instruction. -/
def insSize : Nat := 4

/-- R6: the default of `ENTRY_LABEL`, which only the image producer reads. -/
def defaultEntryLabel : String := "main"

/-- FREE VALUE (R161, D29; log entry 7): how far a faulting step had got in its writes. It has no value that a proof could
see; a fault applies it to the counter `State.freeDraws`. -/
opaque Config.freePrefix : Nat → Nat

end Sys2Proof
end

