-- ==== Sys2Proof/Machine/State.lean ====
section
/-! DEFINITION. The machine state as plain data (spec/10_state.md): register file, flags, memory of symbolic bytes, engine
status registers, beside the parameters of the run; the reasons a step can stop; the state after reset. -/

namespace Sys2Proof.Machine

/-- A memory cell, the spec's symbolic byte (R27): a raw data byte, an instruction head, or a continuation filler. -/
inductive SymByte where
  | byte (b : Byte)
  | head (w : HeadWord)
  | filler
deriving DecidableEq, Repr

/-- The register file: 17 slots of 64 bits (R20). Read and written through `RegFile.get` and `RegFile.set`. -/
structure RegFile where
  rax : Word := 0
  rbx : Word := 0
  rcx : Word := 0
  rdx : Word := 0
  rsi : Word := 0
  rdi : Word := 0
  rbp : Word := 0
  rsp : Word := 0
  r08 : Word := 0
  r09 : Word := 0
  r10 : Word := 0
  r11 : Word := 0
  r12 : Word := 0
  r13 : Word := 0
  r14 : Word := 0
  r15 : Word := 0
  rip : Word := 0
deriving DecidableEq, Repr

/-- The flags record: overflow, sign, zero (R24). -/
structure Flags where
  OF : Bool := false
  SF : Bool := false
  ZF : Bool := false
deriving DecidableEq, Repr

/-- The memory: cells by address, strictly rising, none equal to what an unlisted address reads as
(`Memory.wf`). A cell is a symbolic byte (R27), so a pair holds a `SymByte` (log entry 5, DESIGN CHOICE). -/
abbrev Memory := List (Nat × SymByte)

/-- The status register `STATE` (R29); the code 3 is never stored. -/
inductive RunState where
  | running
  | halted
  | faulted
deriving DecidableEq, Repr

/-- The status register `FAULT_KIND` (R29, R160). -/
inductive FaultKind where
  | none
  | address
  | decode
  | malformed
deriving DecidableEq, Repr

/-- The faults the engine raises, one for each row of the table of spec/60_exceptions.md R160 that a head word can
express. (Malformed-operand cause 5 needs a label in an operand, which a head word cannot hold: R92.) -/
inductive Cause where
  | fetchWindow
  | fetchNotHead
  | readWindow
  | writeWindow
  | readInsnCell
  | reservedBits
  | reservedOpcode
  | conditionCode
  | operandCount
  | operandKind
  | registerIndex
  | ripNamed
  | immediateDestination
  | shiftAmount
  | leaqSource
deriving DecidableEq, Repr

/-- The machine: exactly the register file, the flags record, the memory and the engine's status registers
(spec/10_state.md), with the parameters of the run (R6; never written, log entry 1) and the model's own counter of free
values drawn (log entry 7). -/
structure State where
  /-- The parameters of the run (R6, R30). -/
  params : Params
  /-- The register file (R20). -/
  regs : RegFile
  /-- The flags (R24). -/
  flags : Flags
  /-- The memory (R26). -/
  mem : Memory
  /-- `STATE` (R29). -/
  runState : RunState
  /-- `FAULT_KIND` (R29). -/
  faultKind : FaultKind
  /-- `FAULT_CAUSE` (R29). -/
  faultCause : BitVec 4
  /-- `FAULT_ADDR` (R29). -/
  faultAddr : Word
  /-- `FAULT_IP` (R29). -/
  faultIp : Word
  /-- `FAULT_OPC` (R29). -/
  faultOpc : Byte
  /-- The MODEL's own counter of free values drawn. -/
  freeDraws : Nat
deriving DecidableEq, Repr

/-- Why the machine has no further step. The spec's own three kinds of fault (R160) are not here: raising one is a next
state, with the status registers written (R161, `raise`). -/
inductive Fault where
  /-- STUCK. Raised by `step` when `STATE` = `HALTED`: a halted engine has no further step (R80, R81). Safe: the spec
  allows no step. -/
  | halted
  /-- STUCK. Raised by `step` when `STATE` = `FAULTED`: a faulted engine never steps again (R80, R161). Safe: the spec
  allows no step. -/
  | faulted
deriving DecidableEq, Repr

/-- What the model gives no meaning to. -/
inductive Refusal where
  /-- An instruction that has no meaning yet; raised by no arm of `exec`. Safe. -/
  | notModelled (mnemonic : String)
  /-- Raised by `load` for an image that does not fit the window: "the load is refused" (R184). Safe: no machine exists. -/
  | imageDoesNotFit
  /-- Raised by `load` for parameters that break the constraints of R6. Safe: no machine exists. -/
  | badParameters
deriving DecidableEq, Repr

/-- R31: the state right after a load, before the image's segments are in memory; `STATE` is RUNNING here and the loader
makes it HALTED if `rip` = `HALT_ADDR`. Memory lists nothing: an unlisted cell reads as `resetCell`, which holds the zero
fill and the halt-sentinel word. -/
def State.initial (p : Params) (entry : Word) : State where
  params := p
  regs := { rsp := BitVec.ofNat 64 (p.memTop - 8), rip := entry }
  flags := {}
  mem := []
  runState := .running
  faultKind := .none
  faultCause := 0
  faultAddr := 0
  faultIp := 0
  faultOpc := 0
  freeDraws := 0

/-- The machine right after reset (R31, R181) with the default parameters (R6) and an image that holds nothing, whose
entry address is `MEM_BOT` (log entry 2, DESIGN CHOICE: the spec's entry address is the image's). -/
def State.reset : State := .initial .default (BitVec.ofNat 64 Params.default.memBot)

end Sys2Proof.Machine
end

