-- ==== Sys2Proof/Machine/Ops.lean ====
section
/-! DEFINITION. The named operations over registers and memory (spec/20_memory.md), raising a fault
(spec/60_exceptions.md R161), fetching an instruction (R45) and the halt test (R81). -/

namespace Sys2Proof.Machine

/-! ## Registers (R20, R21) -/

/-- `x[r]`. -/
def RegFile.get (f : RegFile) : Reg → Word
  | .rax => f.rax | .rbx => f.rbx | .rcx => f.rcx | .rdx => f.rdx
  | .rsi => f.rsi | .rdi => f.rdi | .rbp => f.rbp | .rsp => f.rsp
  | .r08 => f.r08 | .r09 => f.r09 | .r10 => f.r10 | .r11 => f.r11
  | .r12 => f.r12 | .r13 => f.r13 | .r14 => f.r14 | .r15 => f.r15
  | .rip => f.rip

/-- `x[r] <- v`: all 64 bits (R21). -/
def RegFile.set (f : RegFile) (r : Reg) (v : Word) : RegFile :=
  match r with
  | .rax => { f with rax := v } | .rbx => { f with rbx := v }
  | .rcx => { f with rcx := v } | .rdx => { f with rdx := v }
  | .rsi => { f with rsi := v } | .rdi => { f with rdi := v }
  | .rbp => { f with rbp := v } | .rsp => { f with rsp := v }
  | .r08 => { f with r08 := v } | .r09 => { f with r09 := v }
  | .r10 => { f with r10 := v } | .r11 => { f with r11 := v }
  | .r12 => { f with r12 := v } | .r13 => { f with r13 := v }
  | .r14 => { f with r14 := v } | .r15 => { f with r15 := v }
  | .rip => { f with rip := v }

/-- Reading a register of the machine. -/
def State.reg (s : State) (r : Reg) : Word := s.regs.get r

/-- Writing a register of the machine. -/
def State.setReg (s : State) (r : Reg) (v : Word) : State := { s with regs := s.regs.set r v }

/-- Writing the flags. -/
def State.setFlags (s : State) (f : Flags) : State := { s with flags := f }

/-! ## Bytes of a word (R44) -/

/-- Bits `8*i+7` to `8*i` of a word. -/
def byteOf (v : Word) (i : Nat) : Byte := v.extractLsb' (8 * i) 8

/-- R194 `bytes_of_quad`: the 8 bytes of a word, lowest address first; memory is little-endian (R44). -/
def quadBytes (v : Word) : List Byte := (List.range 8).map (byteOf v)

/-- R42, R44: the word whose bits `8*i+7` to `8*i` are `f i`. -/
def wordOfBytes (f : Nat → Byte) : Word :=
  (f 7 ++ f 6 ++ f 5 ++ f 4 ++ f 3 ++ f 2 ++ f 1 ++ f 0 :)

/-! ## Memory cells (R26, R27) -/

/-- What a cell nothing has written since the load reads as: the zero fill of R181, and the 8 halt-sentinel bytes at
`MEM_TOP - 8`, little-endian. -/
def resetCell (p : Params) (a : Nat) : SymByte :=
  if p.memTop - 8 ≤ a ∧ a < p.memTop then .byte (byteOf p.haltAddr (a - (p.memTop - 8))) else .byte 0

/-- The cell listed at an address. -/
def Memory.find (m : Memory) (a : Nat) : Option SymByte :=
  match m with
  | [] => none
  | (b, c) :: rest => if a = b then some c else Memory.find rest a

/-- The list with the cell at `a` listed as `c`. -/
def Memory.insert (m : Memory) (a : Nat) (c : SymByte) : Memory :=
  match m with
  | [] => [(a, c)]
  | (b, d) :: rest =>
    if a < b then (a, c) :: (b, d) :: rest
    else if a = b then (a, c) :: rest
    else (b, d) :: Memory.insert rest a c

/-- The list without the cell at `a`. -/
def Memory.erase (m : Memory) (a : Nat) : Memory :=
  match m with
  | [] => []
  | (b, d) :: rest => if a = b then Memory.erase rest a else (b, d) :: Memory.erase rest a

/-- The cell at an address. -/
def Memory.get (p : Params) (m : Memory) (a : Nat) : SymByte := (Memory.find m a).getD (resetCell p a)

/-- The memory with the cell at `a` made `c`; the canonical form is kept: a cell equal to its reset contents is not
listed. -/
def Memory.set (p : Params) (m : Memory) (a : Nat) (c : SymByte) : Memory :=
  if c = resetCell p a then Memory.erase m a else Memory.insert m a c

/-- Every address of the list is above `lo`, rising strictly. -/
def Memory.risingFrom (lo : Nat) : Memory → Bool
  | [] => true
  | (a, _) :: rest => decide (lo ≤ a) && Memory.risingFrom (a + 1) rest

/-- The canonical form: addresses strictly rising, all in the window, none listed with its reset contents. -/
def Memory.wf (p : Params) (m : Memory) : Bool :=
  Memory.risingFrom 0 m &&
    m.all fun e => decide (p.memBot ≤ e.1) && decide (e.1 < p.memTop) && e.2 != resetCell p e.1

/-- `Cell(a)` of R8. An address outside the window has no cell; every access checks the window first (R41). -/
def State.cell (s : State) (a : Nat) : SymByte := Memory.get s.params s.mem a

/-- `Cell(a) <- c`. -/
def State.setCell (s : State) (a : Nat) (c : SymByte) : State := { s with mem := Memory.set s.params s.mem a c }

/-- `Cell(a), Cell(a+1), ... <- cs`, in rising order. -/
def State.setCells (s : State) (a : Nat) (cs : List SymByte) : State :=
  match cs with
  | [] => s
  | c :: rest => State.setCells (s.setCell a c) (a + 1) rest

/-! ## Address decoding and validation (R40, R41) -/

/-- R40: `map(a)`, a store index or out of range. -/
def mapAddr (p : Params) (a : Word) : Option Nat :=
  if p.memBot ≤ a.toNat ∧ a.toNat < p.memTop then some (a.toNat - p.memBot) else none

/-- R41: `valid(a, n)`, over unbounded integers. -/
def validAccess (p : Params) (a : Word) (n : Nat) : Bool :=
  decide (p.memBot ≤ a.toNat) && decide (a.toNat + n ≤ p.memTop)

/-! ## Data access (R42, R43) -/

/-- A fault an operation reports: its cause, and the address it is about (R160). -/
structure Raised where
  cause : Cause
  addr : Word
deriving DecidableEq, Repr

/-- R42: the byte a data read takes from a cell, if it may take one. -/
def dataByte (p : Params) : SymByte → Option Byte
  | .byte b => some b
  | _ => match p.insnCellRead with
    | .fault => none
    | .zero => some 0

/-- R42: every one of the `n` cells from `a` gives a data read a byte. -/
def State.dataCells (s : State) (a n : Nat) : Bool :=
  (List.range n).all fun i => (dataByte s.params (s.cell (a + i))).isSome

/-- R42, R44: the word that the 8 cells from `a` hold. -/
def State.wordAt (s : State) (a : Nat) : Word :=
  wordOfBytes fun i => (dataByte s.params (s.cell (a + i))).getD 0

/-- R42: `MemRead(a, 8)`. It changes no state. -/
def memRead (s : State) (a : Word) : Except Raised Word :=
  if validAccess s.params a 8 then
    if s.dataCells a.toNat 8 then .ok (s.wordAt a.toNat) else .error ⟨.readInsnCell, a⟩
  else .error ⟨.readWindow, a⟩

/-- R43: `MemWrite(a, 8, v)`. The window check comes first, so an invalid write changes no cell. -/
def memWrite (s : State) (a : Word) (v : Word) : Except Raised State :=
  if validAccess s.params a 8 then .ok (s.setCells a.toNat ((quadBytes v).map .byte))
  else .error ⟨.writeWindow, a⟩

/-! ## Codes of the status registers (R29, R160) -/

/-- R29: the 2-bit code of `STATE`. -/
def RunState.code : RunState → BitVec 2
  | .running => 0 | .halted => 1 | .faulted => 2

/-- R160: the 2-bit code of `FAULT_KIND`. -/
def FaultKind.code : FaultKind → BitVec 2
  | .none => 0 | .address => 1 | .decode => 2 | .malformed => 3

/-- R160: the kind of a fault. -/
def Cause.kind : Cause → FaultKind
  | .fetchWindow | .fetchNotHead | .readWindow | .writeWindow | .readInsnCell => .address
  | .reservedBits | .reservedOpcode | .conditionCode | .operandCount | .operandKind | .registerIndex => .decode
  | .ripNamed | .immediateDestination | .shiftAmount | .leaqSource => .malformed

/-- R160: the cause code of a fault within its kind. -/
def Cause.code : Cause → BitVec 4
  | .fetchWindow => 1 | .fetchNotHead => 2 | .readWindow => 3 | .writeWindow => 4 | .readInsnCell => 5
  | .reservedBits => 1 | .reservedOpcode => 2 | .conditionCode => 3 | .operandCount => 4 | .operandKind => 5
  | .registerIndex => 6
  | .ripNamed => 1 | .immediateDestination => 2 | .shiftAmount => 3 | .leaqSource => 4

/-- R160: the cause of a decode fault. -/
def decodeCause : DecodeFault → Cause
  | .reservedBits => .reservedBits
  | .reservedOpcode => .reservedOpcode
  | .conditionCode => .conditionCode
  | .operandCount => .operandCount
  | .operandKind => .operandKind
  | .registerIndex => .registerIndex

/-- R27: the 2-bit tag of a cell; 11 is never stored. -/
def SymByte.tag : SymByte → BitVec 2
  | .byte _ => 0 | .head _ => 1 | .filler => 2

/-! ## Raising a fault (R161) -/

/-- R161, D29: the state at the start of the faulting step with some prefix of the step's writes applied. `landed` lists
the states the step went through, one after each write it had made; which of them is left is a FREE VALUE (log entry 7). -/
def faultBase (start : State) (landed : List State) : State :=
  (start :: landed).getD (Config.freePrefix start.freeDraws % (landed.length + 1)) start

/-- R161: `raise Fault(kind, cause, addr)`, the ONE operation that takes a fault: the five fault registers are written and
`STATE` becomes FAULTED. Nothing is saved for a handler, no mode changes and no vector is taken (R165); nothing returns
from it (R166). -/
def raise (e : Raised) (pc0 : Word) (opc : Byte) (start : State) (landed : List State) : State :=
  { faultBase start landed with
    runState := .faulted
    faultKind := e.cause.kind
    faultCause := e.cause.code
    faultAddr := e.addr
    faultIp := pc0
    faultOpc := opc
    freeDraws := start.freeDraws + 1 }

/-! ## Fetch, advance and halt (R45, R82, R81) -/

/-- R45: `FetchCell(a)`. Only the addressed cell is checked. -/
def fetchCell (s : State) (a : Word) : Except Raised HeadWord :=
  match mapAddr s.params a with
  | none => .error ⟨.fetchWindow, a⟩
  | some _ => match s.cell a.toNat with
    | .head w => .ok w
    | _ => .error ⟨.fetchNotHead, a⟩

/-- R82: `x[16] <- pc0 +64 4`. -/
def State.advance (s : State) : State := s.setReg .rip (s.reg .rip + BitVec.ofNat 64 insSize)

/-- While an instruction executes, `rip` holds the address of the next one in memory (R23), so this is `pc0`, the address
the executing instruction was fetched from (log entry 10). -/
def State.pc0 (s : State) : Word := s.reg .rip - BitVec.ofNat 64 insSize

/-- The state at the start of the step of an executing instruction: `rip` not yet advanced. -/
def State.stepStart (s : State) : State := s.setReg .rip s.pc0

/-- R81: at the end of a step that completes, and after a load, `rip` is compared with `HALT_ADDR`, all 64 bits. -/
def haltTest (s : State) : State :=
  match s.runState with
  | .running => if s.reg .rip = s.params.haltAddr then { s with runState := .halted } else s
  | _ => s

/-! ## Instructions in memory (R27, R194) -/

/-- R194 `cells_of_instr`: a head and three fillers. -/
def instrCells (w : HeadWord) : List SymByte := [.head w, .filler, .filler, .filler]

/-- R41 for an address of a cell: it lies in the window. -/
def inWindow (p : Params) (a : Nat) : Bool := decide (p.memBot ≤ a) && decide (a < p.memTop)

/-- An instruction stored at an address of the window, as the loader stores one; a filler past the window's end has no
cell. -/
def State.placeInstr (s : State) (a : Word) (w : HeadWord) : State :=
  if inWindow s.params a.toNat then s.setCells a.toNat ((instrCells w).take (s.params.memTop - a.toNat)) else s

end Sys2Proof.Machine
end

