-- ==== Sys2Proof/Machine/Flags.lean ====
section
/-! DEFINITION. Checked arithmetic (spec/40_execution_core.md R87), the flag rules (R88, R89, spec/43_shift.md R124) and the
conditions (R90). -/

namespace Sys2Proof.Machine

/-! ## Checked arithmetic (R87) -/

/-- R87: the exact signed result fits in 64 signed bits. -/
def fits (n : Int) : Bool := decide (-2 ^ 63 ≤ n) && decide (n < 2 ^ 63)

/-- R87: the low 64 bits of an exact result, and the report that it does not fit. -/
def checked (n : Int) : Word × Bool := (BitVec.ofInt 64 n, !fits n)

/-- R87. -/
def cadd (d s : Word) : Word × Bool := checked (d.toInt + s.toInt)

/-- R87: `d - s`. -/
def csub (d s : Word) : Word × Bool := checked (d.toInt - s.toInt)

/-- R87. -/
def cneg (d : Word) : Word × Bool := checked (-d.toInt)

/-- R87. -/
def cmul (d s : Word) : Word × Bool := checked (d.toInt * s.toInt)

/-! ## Flag rules -/

/-- R88 `SetArith(r, o)`. -/
def arithFlags (r : Word) (o : Bool) : Flags := { OF := o, SF := r.getLsbD 63, ZF := r == 0 }

/-- R89 `SetLogic(r)`. -/
def logicFlags (r : Word) : Flags := { OF := false, SF := r.getLsbD 63, ZF := r == 0 }

/-- The three shifts. -/
inductive ShiftOp where
  | sar | shl | shr
deriving DecidableEq, Repr

/-- R124: the overflow flag of a shift by exactly 1, from the pre-shift value. -/
def shiftOverflow (op : ShiftOp) (d : Word) : Bool :=
  match op with
  | .sar => false
  | .shl => d.getLsbD 63 ^^ d.getLsbD 62
  | .shr => d.getLsbD 63

/-- R124 `SetShift(op, a, d, r)`, from the flags before. -/
def shiftFlags (op : ShiftOp) (a : Nat) (d r : Word) (before : Flags) : Flags :=
  if a = 0 then before
  else { OF := if a = 1 then shiftOverflow op d else before.OF, SF := r.getLsbD 63, ZF := r == 0 }

/-- R88: a checked result with the flags it leaves. -/
def arithResult (c : Word × Bool) : Word × Flags := (c.1, arithFlags c.1 c.2)

/-- R89: a logical result with the flags it leaves. -/
def logicResult (r : Word) : Word × Flags := (r, logicFlags r)

/-! ## Conditions (R90) -/

/-- R90 `Cond(cc)`; `Lt` is gated by `ZF` only when the parameter `LT_GATED_BY_ZF` is true. -/
def condHolds (p : Params) (f : Flags) : Cond → Bool
  | .eq => f.ZF
  | .neq => !f.ZF
  | .gt => !f.ZF && f.SF == f.OF
  | .ge => f.SF == f.OF
  | .lt => if p.ltGatedByZf then f.SF != f.OF && !f.ZF else f.SF != f.OF
  | .le => f.ZF || f.SF != f.OF

/-- The condition as the state's flags and parameters give it. -/
def State.cond (s : State) (c : Cond) : Bool := condHolds s.params s.flags c

end Sys2Proof.Machine
end

