-- ==== Sys2Proof/Machine/Operands.lean ====
section
/-! DEFINITION. Operands: effective addresses, reads and writes (spec/40_execution_core.md R83 to R86), the shape check
(spec/30_encoding.md R72), and the frame that every instruction's meaning runs in (R82, R161, R162). -/

namespace Sys2Proof.Machine

/-! ## Effective addresses, reads and writes (R83 to R85) -/

/-- R83: `EA(op)`; the sum wraps modulo 2^64. -/
def State.ea (s : State) : Indirect → Word
  | .ind1 i => i
  | .ind2 r => s.reg r
  | .ind3 i r => s.reg r + i

/-- R84: `ReadOp(op)`. -/
def readOp (s : State) : Operand → Except Raised Word
  | .imm i => .ok i
  | .reg r => .ok (s.reg r)
  | .ind m => memRead s (s.ea m)

/-- R85: `WriteOp(op, v)`; the address written is the operand's own effective address. A write to an immediate is a
malformed-operand fault, which the shape check raises first. -/
def writeOp (s : State) (op : Operand) (v : Word) : Except Raised State :=
  match op with
  | .imm _ => .error ⟨.immediateDestination, s.pc0⟩
  | .reg r => .ok (s.setReg r v)
  | .ind m => memWrite s (s.ea m) v

/-! ## Shapes (R72) -/

/-- What an operation allows of an operand (the cells of the table of R72). -/
inductive Role where
  | anyKind
  | destination
  | leaqSource
  | shiftAmount
deriving DecidableEq, Repr

/-- R72: the roles of an opcode's operands, operand 0 first. -/
def rolesOf : Opcode → List Role
  | .incq | .decq | .negq | .notq | .setcc _ | .popq => [.destination]
  | .pushq | .jmp | .callq | .jcc _ => [.anyKind]
  | .retq => []
  | .addq | .subq | .imulq | .andq | .orq | .xorq | .movq => [.anyKind, .destination]
  | .leaq => [.leaqSource, .destination]
  | .sarq | .shlq | .shrq => [.shiftAmount, .destination]
  | .cmpq => [.anyKind, .anyKind]

/-- R72: the operand is `Reg(16)`, `Ind2(16)` or `Ind3(_, 16)`. -/
def namesRip : Operand → Bool
  | .reg .rip => true
  | .ind (.ind2 .rip) => true
  | .ind (.ind3 _ .rip) => true
  | _ => false

/-- R72: the check of one operand; `rip` comes first, then the kind. -/
def checkOperand (role : Role) (op : Operand) : Option Cause :=
  if namesRip op then some .ripNamed
  else match role, op with
    | .anyKind, _ => none
    | .destination, .imm _ => some .immediateDestination
    | .destination, _ => none
    | .leaqSource, .ind _ => none
    | .leaqSource, _ => some .leaqSource
    | .shiftAmount, .imm _ => none
    | .shiftAmount, .reg .rcx => none
    | .shiftAmount, _ => some .shiftAmount

/-- R72: the operands are checked in order, and the first that fails is reported. -/
def checkOperands : List Role → List Operand → Option Cause
  | role :: roles, op :: ops => match checkOperand role op with
    | some c => some c
    | none => checkOperands roles ops
  | _, _ => none

/-- R72: `CheckShape(ins)`. -/
def checkShape (i : Instr) : Option Cause := checkOperands (rolesOf i.abs.op) i.abs.operands

/-! ## The frame of a meaning (R82, R161, R162) -/

/-- A fault raised inside `Execute`: what was raised, and the states after each write that `Execute` had made. -/
structure Stop where
  raised : Raised
  landed : List State

/-- `CheckShape` and then `Execute` of an instruction, with the faults either raises. `s` is the state after the `rip`
advance; `body` is what `Execute` makes of it. -/
def execute (i : Instr) (s : State) (body : Except Stop State) : Host.Outcome State Fault Refusal :=
  match checkShape i with
  | some c => .next (raise ⟨c, s.pc0⟩ s.pc0 i.abs.op.num s.stepStart [s])
  | none => match body with
    | .ok t => .next t
    | .error e => .next (raise e.raised s.pc0 i.abs.op.num s.stepStart (s :: e.landed))

/-- Read an operand and go on with its value; no write of `Execute` has been made yet (R86: every read comes before the
write). -/
def reading (s : State) (op : Operand) (k : Word → Except Stop State) : Except Stop State :=
  match readOp s op with
  | .ok v => k v
  | .error e => .error ⟨e, []⟩

/-- Write a destination as the first write of `Execute`. -/
def writing (s : State) (op : Operand) (v : Word) : Except Stop State :=
  match writeOp s op v with
  | .ok t => .ok t
  | .error e => .error ⟨e, []⟩

/-- Write a destination, and then the flags as the last action of `Execute` (R91). -/
def writingFlags (s : State) (op : Operand) (v : Word) (f : Flags) : Except Stop State :=
  match writing s op v with
  | .ok t => .ok (t.setFlags f)
  | .error e => .error e

/-- Read-modify-write of one operand: `f` gives the result and the flags. -/
def modify1 (s : State) (dst : Operand) (f : Word → Word × Flags) : Except Stop State :=
  reading s dst fun d => writingFlags s dst (f d).1 (f d).2

/-- Read-modify-write with a source: operand 0 is read before operand 1 (R86); `f` takes the destination's value and then
the source's. -/
def modify2 (s : State) (src dst : Operand) (f : Word → Word → Word × Flags) : Except Stop State :=
  reading s src fun v => reading s dst fun d => writingFlags s dst (f d v).1 (f d v).2

end Sys2Proof.Machine
end

