-- ==== Sys2Proof/Machine/Arithmetic.lean ====
section
/-! DEFINITION. The meanings of the arithmetic instructions (spec/41_arithmetic.md R100 to R105). -/

namespace Sys2Proof.Machine

/-- R100 INCQ. -/
def execIncq (dst : Operand) (s : State) : Host.Outcome State Fault Refusal :=
  execute (.incq dst) s (modify1 s dst fun d => arithResult (cadd d 1))

/-- R101 DECQ. -/
def execDecq (dst : Operand) (s : State) : Host.Outcome State Fault Refusal :=
  execute (.decq dst) s (modify1 s dst fun d => arithResult (csub d 1))

/-- R102 NEGQ. -/
def execNegq (dst : Operand) (s : State) : Host.Outcome State Fault Refusal :=
  execute (.negq dst) s (modify1 s dst fun d => arithResult (cneg d))

/-- R103 ADDQ. -/
def execAddq (src dst : Operand) (s : State) : Host.Outcome State Fault Refusal :=
  execute (.addq src dst) s (modify2 s src dst fun d v => arithResult (cadd d v))

/-- R104 SUBQ: destination minus source. -/
def execSubq (src dst : Operand) (s : State) : Host.Outcome State Fault Refusal :=
  execute (.subq src dst) s (modify2 s src dst fun d v => arithResult (csub d v))

/-- R105 IMULQ: the low 64 bits of the signed product. -/
def execImulq (src dst : Operand) (s : State) : Host.Outcome State Fault Refusal :=
  execute (.imulq src dst) s (modify2 s src dst fun d v => arithResult (cmul d v))

end Sys2Proof.Machine
end

