-- ==== Sys2Proof/Machine/CompareData.lean ====
section
/-! DEFINITION. The meanings of the compare, data-movement and set-on-condition instructions
(spec/44_compare_and_data.md R130 to R133). -/

namespace Sys2Proof.Machine

/-- R130 CMPQ: destination minus source, only for the flags. -/
def execCmpq (src dst : Operand) (s : State) : Host.Outcome State Fault Refusal :=
  execute (.cmpq src dst) s (reading s src fun v => reading s dst fun d => .ok (s.setFlags (arithResult (csub d v)).2))

/-- R131 MOVQ. -/
def execMovq (src dst : Operand) (s : State) : Host.Outcome State Fault Refusal :=
  execute (.movq src dst) s (reading s src fun v => writing s dst v)

/-- R132: `Execute` of LEAQ; nothing is read at the address. A source that is not indirect has no effective address (R83),
and the shape check raises its fault first (R72). -/
def loadAddress (s : State) (mem dst : Operand) : Except Stop State :=
  match mem with
  | .ind m => writing s dst (s.ea m)
  | _ => .error ⟨⟨.leaqSource, s.pc0⟩, []⟩

/-- R132 LEAQ. -/
def execLeaq (mem dst : Operand) (s : State) : Host.Outcome State Fault Refusal :=
  execute (.leaq mem dst) s (loadAddress s mem dst)

/-- R133: bits 63 to 8 kept, bits 7 to 0 replaced by 1 or 0. -/
def setLowByte (d : Word) (b : Bool) : Word := (d.extractLsb' 8 56 ++ (if b then 1#8 else 0#8) :)

/-- R133: `Execute` of SETcc; the destination is read and written as 8 bytes. -/
def setOnCond (s : State) (c : Cond) (dst : Operand) : Except Stop State :=
  reading s dst fun d => writing s dst (setLowByte d (s.cond c))

/-- R133 SETE. -/
def execSete (dst : Operand) (s : State) : Host.Outcome State Fault Refusal :=
  execute (.sete dst) s (setOnCond s .eq dst)

/-- R133 SETNE. -/
def execSetne (dst : Operand) (s : State) : Host.Outcome State Fault Refusal :=
  execute (.setne dst) s (setOnCond s .neq dst)

/-- R133 SETG. -/
def execSetg (dst : Operand) (s : State) : Host.Outcome State Fault Refusal :=
  execute (.setg dst) s (setOnCond s .gt dst)

/-- R133 SETGE. -/
def execSetge (dst : Operand) (s : State) : Host.Outcome State Fault Refusal :=
  execute (.setge dst) s (setOnCond s .ge dst)

/-- R133 SETL. -/
def execSetl (dst : Operand) (s : State) : Host.Outcome State Fault Refusal :=
  execute (.setl dst) s (setOnCond s .lt dst)

/-- R133 SETLE. -/
def execSetle (dst : Operand) (s : State) : Host.Outcome State Fault Refusal :=
  execute (.setle dst) s (setOnCond s .le dst)

end Sys2Proof.Machine
end

