-- ==== Sys2Proof/Machine/Logical.lean ====
section
/-! DEFINITION. The meanings of the logical instructions (spec/42_logical.md R110 to R113). -/

namespace Sys2Proof.Machine

/-- R110 NOTQ; it writes all three flags. -/
def execNotq (dst : Operand) (s : State) : Host.Outcome State Fault Refusal :=
  execute (.notq dst) s (modify1 s dst fun d => logicResult (~~~d))

/-- R111 ANDQ. -/
def execAndq (src dst : Operand) (s : State) : Host.Outcome State Fault Refusal :=
  execute (.andq src dst) s (modify2 s src dst fun d v => logicResult (d &&& v))

/-- R112 ORQ. -/
def execOrq (src dst : Operand) (s : State) : Host.Outcome State Fault Refusal :=
  execute (.orq src dst) s (modify2 s src dst fun d v => logicResult (d ||| v))

/-- R113 XORQ. -/
def execXorq (src dst : Operand) (s : State) : Host.Outcome State Fault Refusal :=
  execute (.xorq src dst) s (modify2 s src dst fun d v => logicResult (d ^^^ v))

end Sys2Proof.Machine
end

