-- ==== Sys2Proof/Machine/Shift.lean ====
section
/-! DEFINITION. The meanings of the shift instructions (spec/43_shift.md R120 to R124). -/

namespace Sys2Proof.Machine

/-- R120: the low 6 bits of the amount operand's value, 0 to 63. -/
def shiftAmountOf (v : Word) : Nat := (v.extractLsb' 0 6).toNat

/-- R121, R122, R123: the result of a shift of `d` by `a`. -/
def shiftValue (op : ShiftOp) (d : Word) (a : Nat) : Word :=
  match op with
  | .sar => BitVec.ofInt 64 (d.toInt / 2 ^ a)
  | .shl => BitVec.ofNat 64 (d.toNat * 2 ^ a)
  | .shr => BitVec.ofNat 64 (d.toNat / 2 ^ a)

/-- R120, R124: the result and the flags of a shift of `d` by the amount operand's value `v`, from the flags before. -/
def shiftResult (op : ShiftOp) (d v : Word) (before : Flags) : Word × Flags :=
  (shiftValue op d (shiftAmountOf v), shiftFlags op (shiftAmountOf v) d (shiftValue op d (shiftAmountOf v)) before)

/-- R121 SARQ. An amount of 0 writes the unchanged value back. -/
def execSarq (amt dst : Operand) (s : State) : Host.Outcome State Fault Refusal :=
  execute (.sarq amt dst) s (modify2 s amt dst fun d v => shiftResult .sar d v s.flags)

/-- R122 SHLQ. -/
def execShlq (amt dst : Operand) (s : State) : Host.Outcome State Fault Refusal :=
  execute (.shlq amt dst) s (modify2 s amt dst fun d v => shiftResult .shl d v s.flags)

/-- R123 SHRQ. -/
def execShrq (amt dst : Operand) (s : State) : Host.Outcome State Fault Refusal :=
  execute (.shrq amt dst) s (modify2 s amt dst fun d v => shiftResult .shr d v s.flags)

end Sys2Proof.Machine
end

