-- ==== Sys2Proof/Machine/StackControl.lean ====
section
/-! DEFINITION. The meanings of the stack and control-transfer instructions (spec/45_stack_and_control.md R140 to R145).
A target is any 64-bit value; it is not aligned, masked or checked when it is written to `rip` (R146). -/

namespace Sys2Proof.Machine

/-- R140, R143: `rsp` goes down by 8 and the value is stored at the new `rsp`. If the store faults, the decrement is a
write that `Execute` had made. -/
def pushWord (s : State) (v : Word) : Except Stop State :=
  let s1 := s.setReg .rsp (s.reg .rsp - 8)
  match memWrite s1 (s1.reg .rsp) v with
  | .ok t => .ok t
  | .error e => .error ⟨e, [s1]⟩

/-- R141, R144: `rsp` goes up by 8, from the value it has now. -/
def releaseWord (s : State) : State := s.setReg .rsp (s.reg .rsp + 8)

/-- R8: `pc <- target`. -/
def State.jump (s : State) (target : Word) : State := s.setReg .rip target

/-- Read the word at `rsp`, before any write of `Execute`. -/
def readingStack (s : State) (k : Word → Except Stop State) : Except Stop State :=
  match memRead s (s.reg .rsp) with
  | .ok v => k v
  | .error e => .error ⟨e, []⟩

/-- R140 PUSHQ: the operand is read before `rsp` changes. -/
def execPushq (src : Operand) (s : State) : Host.Outcome State Fault Refusal :=
  execute (.pushq src) s (reading s src fun v => pushWord s v)

/-- R141: the destination is written with `rsp` as it stood before the pop; the increment reads `rsp` again after that
write (D26). -/
def popInto (s : State) (dst : Operand) : Except Stop State :=
  readingStack s fun v => match writing s dst v with
    | .ok t => .ok (releaseWord t)
    | .error e => .error e

/-- R141 POPQ. -/
def execPopq (dst : Operand) (s : State) : Host.Outcome State Fault Refusal :=
  execute (.popq dst) s (popInto s dst)

/-- R142 JMP. -/
def execJmp (tgt : Operand) (s : State) : Host.Outcome State Fault Refusal :=
  execute (.jmp tgt) s (reading s tgt fun t => .ok (s.jump t))

/-- R143: push the advanced `rip`, which is the address of the instruction after the call, then jump. -/
def callTo (s : State) (target : Word) : Except Stop State :=
  match pushWord s (s.reg .rip) with
  | .ok t => .ok (t.jump target)
  | .error e => .error e

/-- R143 CALLQ: the target is read before `rsp` changes. -/
def execCallq (tgt : Operand) (s : State) : Host.Outcome State Fault Refusal :=
  execute (.callq tgt) s (reading s tgt fun t => callTo s t)

/-- R144 RETQ. -/
def execRetq (s : State) : Host.Outcome State Fault Refusal :=
  execute .retq s (readingStack s fun t => .ok (releaseWord (s.jump t)))

/-- R145: the target is read whether or not the jump is taken (D27). -/
def jumpOnCond (s : State) (c : Cond) (tgt : Operand) : Except Stop State :=
  reading s tgt fun t => .ok (if s.cond c then s.jump t else s)

/-- R145 JE. -/
def execJe (tgt : Operand) (s : State) : Host.Outcome State Fault Refusal :=
  execute (.je tgt) s (jumpOnCond s .eq tgt)

/-- R145 JNE. -/
def execJne (tgt : Operand) (s : State) : Host.Outcome State Fault Refusal :=
  execute (.jne tgt) s (jumpOnCond s .neq tgt)

/-- R145 JG. -/
def execJg (tgt : Operand) (s : State) : Host.Outcome State Fault Refusal :=
  execute (.jg tgt) s (jumpOnCond s .gt tgt)

/-- R145 JGE. -/
def execJge (tgt : Operand) (s : State) : Host.Outcome State Fault Refusal :=
  execute (.jge tgt) s (jumpOnCond s .ge tgt)

/-- R145 JL. -/
def execJl (tgt : Operand) (s : State) : Host.Outcome State Fault Refusal :=
  execute (.jl tgt) s (jumpOnCond s .lt tgt)

/-- R145 JLE. -/
def execJle (tgt : Operand) (s : State) : Host.Outcome State Fault Refusal :=
  execute (.jle tgt) s (jumpOnCond s .le tgt)

end Sys2Proof.Machine
end

