-- ==== Sys2Proof/Machine/Dispatch.lean ====
section
/-! DEFINITION. `exec`: `CheckShape` and `Execute` of a decoded instruction (spec/40_execution_core.md R82), one arm for each
constructor. The state it takes is the one after the `rip` advance: `rip` holds `pc0 + 4` (R23). -/

namespace Sys2Proof.Machine

def exec (i : Instr) (s : State) : Host.Outcome State Fault Refusal :=
  match i with
  | .incq dst => Sys2Proof.Machine.execIncq dst s
  | .decq dst => Sys2Proof.Machine.execDecq dst s
  | .negq dst => Sys2Proof.Machine.execNegq dst s
  | .addq src dst => Sys2Proof.Machine.execAddq src dst s
  | .subq src dst => Sys2Proof.Machine.execSubq src dst s
  | .imulq src dst => Sys2Proof.Machine.execImulq src dst s
  | .notq dst => Sys2Proof.Machine.execNotq dst s
  | .andq src dst => Sys2Proof.Machine.execAndq src dst s
  | .orq src dst => Sys2Proof.Machine.execOrq src dst s
  | .xorq src dst => Sys2Proof.Machine.execXorq src dst s
  | .sarq amt dst => Sys2Proof.Machine.execSarq amt dst s
  | .shlq amt dst => Sys2Proof.Machine.execShlq amt dst s
  | .shrq amt dst => Sys2Proof.Machine.execShrq amt dst s
  | .cmpq src dst => Sys2Proof.Machine.execCmpq src dst s
  | .movq src dst => Sys2Proof.Machine.execMovq src dst s
  | .leaq mem dst => Sys2Proof.Machine.execLeaq mem dst s
  | .sete dst => Sys2Proof.Machine.execSete dst s
  | .setne dst => Sys2Proof.Machine.execSetne dst s
  | .setg dst => Sys2Proof.Machine.execSetg dst s
  | .setge dst => Sys2Proof.Machine.execSetge dst s
  | .setl dst => Sys2Proof.Machine.execSetl dst s
  | .setle dst => Sys2Proof.Machine.execSetle dst s
  | .pushq src => Sys2Proof.Machine.execPushq src s
  | .popq dst => Sys2Proof.Machine.execPopq dst s
  | .jmp tgt => Sys2Proof.Machine.execJmp tgt s
  | .callq tgt => Sys2Proof.Machine.execCallq tgt s
  | .retq => Sys2Proof.Machine.execRetq s
  | .je tgt => Sys2Proof.Machine.execJe tgt s
  | .jne tgt => Sys2Proof.Machine.execJne tgt s
  | .jg tgt => Sys2Proof.Machine.execJg tgt s
  | .jge tgt => Sys2Proof.Machine.execJge tgt s
  | .jl tgt => Sys2Proof.Machine.execJl tgt s
  | .jle tgt => Sys2Proof.Machine.execJle tgt s

end Sys2Proof.Machine
end

