-- ==== Sys2Proof/Machine/Step.lean ====
section
/-! DEFINITION. One step of the engine (spec/40_execution_core.md R80 to R82): fetch, advance, decode, check the shape,
execute, halt test. -/

namespace Sys2Proof.Machine

/-- R82: the step of a running engine. A fetch or decode fault is raised here; a malformed-operand or data-access fault is
raised inside `exec` (R162). -/
def runningStep (s : State) : Host.Outcome State Fault Refusal :=
  match fetchCell s (s.reg .rip) with
  | .error e => .next (raise e (s.reg .rip) 0 s [])
  | .ok w => match decode w with
    | .error d => .next (raise ⟨decodeCause d, s.reg .rip⟩ (s.reg .rip) (HeadWord.opc w) s [s.advance])
    | .ok i => match exec i s.advance with
      | .next t => .next (haltTest t)
      | .fault f => .fault f
      | .refused r => .refused r

/-- R80: a step is enabled only when `STATE` = RUNNING; a halted or faulted engine has no step (log entry 8). -/
def step (s : State) : Host.Outcome State Fault Refusal :=
  match s.runState with
  | .running => runningStep s
  | .halted => .fault .halted
  | .faulted => .fault .faulted

/-- The state with the instruction of `tableWord nbits w` stored at `rip`, where the next step fetches: its head, and the
three fillers the loader stores after a head (log entry 9). -/
def State.withFetchWord (s : State) (nbits w : Nat) : State := s.placeInstr (s.reg .rip) (tableWord nbits w)

end Sys2Proof.Machine
end

