-- ==== Sys2Proof/Machine/Loader.lean ====
section
/-! DEFINITION. The loader, which is this block's reset (spec/70_reset_and_hazards.md R180 to R184). -/

namespace Sys2Proof.Machine

/-- R183: the executable image. `text` is the list of the head words of its instructions: each stands for a group of one
`Head` and three `Filler` cells (log entry 12). -/
structure Image where
  entry : Word
  textPos : Word
  dataPos : Word
  text : List HeadWord
  data : List Byte
deriving DecidableEq, Repr

/-- R183: the cells of the text segment. -/
def Image.textCells (img : Image) : List SymByte := img.text.flatMap instrCells

/-- R183: the cells of the data segment. -/
def Image.dataCells (img : Image) : List SymByte := img.data.map .byte

/-- R184: `Fits(img)`. -/
def fitsWindow (p : Params) (img : Image) : Bool :=
  decide (p.memBot ≤ img.textPos.toNat) && decide (img.textPos.toNat + img.textCells.length ≤ p.memTop) &&
    decide (p.memBot ≤ img.dataPos.toNat) && decide (img.dataPos.toNat + img.dataCells.length ≤ p.memTop)

/-- R181: the 8 cells of the halt-sentinel word, little-endian. -/
def sentinelCells (p : Params) : List SymByte := (quadBytes p.haltAddr).map .byte

/-- R181: the state a load builds: the zero fill, then the text, then the data, then the sentinel, each over what stood
there before; then the halt test (R81). The memory of `State.initial` lists nothing, which is the zero fill with the
sentinel already in it; the sentinel is written again so that a segment that reaches it is overwritten (R184). -/
def loaded (p : Params) (img : Image) : State :=
  haltTest
    ((((State.initial p img.entry).setCells img.textPos.toNat img.textCells).setCells img.dataPos.toNat img.dataCells).setCells
      (p.memTop - 8) (sentinelCells p))

/-- R181, R184: `LOAD(img)`. An image that does not fit is refused, and so are parameters that break R6. -/
def load (p : Params) (img : Image) : Host.Outcome State Fault Refusal :=
  if p.ok then
    if fitsWindow p img then .next (loaded p img) else .refused .imageDoesNotFit
  else .refused .badParameters

/-- The image that holds nothing and whose entry is `MEM_BOT`: the one that `State.reset` stands for (log entry 2). -/
def emptyImage (p : Params) : Image where
  entry := BitVec.ofNat 64 p.memBot
  textPos := BitVec.ofNat 64 p.memBot
  dataPos := BitVec.ofNat 64 p.memBot
  text := []
  data := []

end Sys2Proof.Machine
end

