-- ==== Sys2Proof/Machine/Assembler.lean ====
section
/-! DEFINITION. The boot image producer (spec/70_reset_and_hazards.md R190 to R197). It is surrounding software, not part of
the engine (spec/00_scope.md R5): no step reads anything of this file. It is here because its output is the only way the
spec gives to build an image. -/

namespace Sys2Proof.Machine

/-- A label (R190). -/
abbrev Label := String

/-- A 64-bit literal or a label that stands for its address (R190, R193). -/
inductive AsmLit where
  | lit (v : Word)
  | label (l : Label)
deriving DecidableEq, Repr

/-- An operand whose literal may be a label (R60, R193). -/
inductive AsmOperand where
  | imm (i : AsmLit)
  | reg (r : Reg)
  | ind1 (i : AsmLit)
  | ind2 (r : Reg)
  | ind3 (i : AsmLit) (r : Reg)
deriving DecidableEq, Repr

/-- An opcode and an ordered list of operands (R190). -/
structure AsmInstr where
  op : Opcode
  operands : List AsmOperand
deriving DecidableEq, Repr

/-- A terminated text literal, one byte for each character (R194, D41; log entry 13), or a 64-bit literal. -/
inductive DataItem where
  | text (chars : List Byte)
  | quad (v : AsmLit)
deriving DecidableEq, Repr

/-- What an element holds (R190). -/
inductive ElementBody where
  | code (instrs : List AsmInstr)
  | data (items : List DataItem)
deriving DecidableEq, Repr

/-- A named element of a program (R190). -/
structure Element where
  label : Label
  body : ElementBody
deriving DecidableEq, Repr

/-- The image-build faults (R192, R193, R195, R196). The third of R196, serialising an unresolved label, cannot arise: what
is serialised has no label in its type. -/
inductive AsmFault where
  | undefinedSymbol (l : Label)
  | redefinedSymbol (l : Label)
deriving DecidableEq, Repr

/-- R191: a text literal costs length+1 bytes, a 64-bit literal 8. -/
def DataItem.size : DataItem → Nat
  | .text chars => chars.length + 1
  | .quad _ => 8

/-- R191: the sum of the items' sizes. -/
def dataSize : List DataItem → Nat
  | [] => 0
  | d :: rest => d.size + dataSize rest

/-- R191: the cells of code of a program. -/
def codeTotal : List Element → Nat
  | [] => 0
  | e :: rest => match e.body with
    | .code is => insSize * is.length + codeTotal rest
    | .data _ => codeTotal rest

/-- R191, R192: the address of each label, from the two cursors; the symbol table in program order. -/
def symbolsFrom (code data : Nat) : List Element → List (Label × Nat)
  | [] => []
  | e :: rest => match e.body with
    | .code is => (e.label, code) :: symbolsFrom (code + insSize * is.length) data rest
    | .data ds => (e.label, data) :: symbolsFrom code (data + dataSize ds) rest

/-- R192: a label defined by two elements. -/
def duplicateLabel : List (Label × Nat) → Option Label
  | [] => none
  | (l, _) :: rest => if rest.any fun e => e.1 == l then some l else duplicateLabel rest

/-- The address of a label in the symbol table. -/
def addressOf (tab : List (Label × Nat)) (l : Label) : Except AsmFault Word :=
  match tab with
  | [] => .error (.undefinedSymbol l)
  | (m, a) :: rest => if m = l then .ok (BitVec.ofNat 64 a) else addressOf rest l

/-- R193: a literal with its label replaced by the label's address. -/
def resolveLit (tab : List (Label × Nat)) : AsmLit → Except AsmFault Word
  | .lit v => .ok v
  | .label l => addressOf tab l

/-- R193 for an operand. -/
def resolveOperand (tab : List (Label × Nat)) : AsmOperand → Except AsmFault Operand
  | .imm i => (resolveLit tab i).map .imm
  | .reg r => .ok (.reg r)
  | .ind1 i => (resolveLit tab i).map fun v => .ind (.ind1 v)
  | .ind2 r => .ok (.ind (.ind2 r))
  | .ind3 i r => (resolveLit tab i).map fun v => .ind (.ind3 v r)

/-- Map over a list, stopping at the first fault. -/
def mapUntilFault {α β : Type} (f : α → Except AsmFault β) : List α → Except AsmFault (List β)
  | [] => .ok []
  | a :: rest => match f a with
    | .error e => .error e
    | .ok b => match mapUntilFault f rest with
      | .error e => .error e
      | .ok bs => .ok (b :: bs)

/-- R193, R194: the head word of an instruction, its labels resolved. -/
def assembleInstr (tab : List (Label × Nat)) (i : AsmInstr) : Except AsmFault HeadWord :=
  (mapUntilFault (resolveOperand tab) i.operands).map fun ops => (AbsInstr.mk i.op ops).encode

/-- R194 `bytes_of_text`: the characters' bytes and a zero terminator. -/
def textBytes (chars : List Byte) : List Byte := chars ++ [0]

/-- R193, R194: the bytes of a data item. -/
def assembleItem (tab : List (Label × Nat)) : DataItem → Except AsmFault (List Byte)
  | .text chars => .ok (textBytes chars)
  | .quad v => (resolveLit tab v).map quadBytes

/-- R193, R194: the text and data segments, each the concatenation of its blocks in program order. -/
def assembleElements (tab : List (Label × Nat)) : List Element → Except AsmFault (List HeadWord × List Byte)
  | [] => .ok ([], [])
  | e :: rest => match e.body with
    | .code is => match mapUntilFault (assembleInstr tab) is with
      | .error f => .error f
      | .ok ws => (assembleElements tab rest).map fun out => (ws ++ out.1, out.2)
    | .data ds => match mapUntilFault (assembleItem tab) ds with
      | .error f => .error f
      | .ok bs => (assembleElements tab rest).map fun out => (out.1, bs.flatten ++ out.2)

/-- R191 to R195: the image of a program, or an image-build fault. A duplicate label fails the whole assembly first; then
the references are resolved in program order; then the entry label (log entry 13). -/
def assemble (p : Params) (entryLabel : Label) (prog : List Element) : Except AsmFault Image :=
  let dataPos := p.memBot + codeTotal prog
  let tab := symbolsFrom p.memBot dataPos prog
  match duplicateLabel tab with
  | some l => .error (.redefinedSymbol l)
  | none => match assembleElements tab prog with
    | .error f => .error f
    | .ok out => match addressOf tab entryLabel with
      | .error f => .error f
      | .ok entry => .ok
          { entry := entry, textPos := BitVec.ofNat 64 p.memBot, dataPos := BitVec.ofNat 64 dataPos,
            text := out.1, data := out.2 }

end Sys2Proof.Machine
end

