-- ==== Sys2Proof/Machine/HostOps.lean ====
section
/-! DEFINITION. The host's operations on the engine (spec/70_reset_and_hazards.md R200, R201). The host cannot write a
register, a flag or a cell of a loaded machine; only LOAD changes state from outside. -/

namespace Sys2Proof.Machine

/-- R200 `LOAD(img)`: a fresh state; nothing of the machine before survives but the parameters (R6, R180). -/
def hostLoad (s : State) (img : Image) : Host.Outcome State Fault Refusal := load s.params img

/-- R200 `STEP`: one step if RUNNING, nothing otherwise. -/
def hostStep (s : State) : State :=
  match s.runState with
  | .running => match step s with
    | .next t => t
    | _ => s
  | _ => s

/-- R200 `RUN(n)`: `STEP` until `STATE` is not RUNNING or `n` steps have run. -/
def hostRun : Nat → State → State
  | 0, s => s
  | n + 1, s => match s.runState with
    | .running => hostRun n (hostStep s)
    | _ => s

/-- What READ_STATUS gives back: `STATE` and the five fault registers, by their codes (R29). -/
structure Status where
  state : BitVec 2
  faultKind : BitVec 2
  faultCause : BitVec 4
  faultAddr : Word
  faultIp : Word
  faultOpc : Byte
deriving DecidableEq, Repr

/-- R200 `READ_STATUS`. -/
def readStatus (s : State) : Status where
  state := s.runState.code
  faultKind := s.faultKind.code
  faultCause := s.faultCause
  faultAddr := s.faultAddr
  faultIp := s.faultIp
  faultOpc := s.faultOpc

/-- R200 `READ_RESULT`, R201: `x[0]`, defined only when `STATE` = HALTED. -/
def readResult (s : State) : Option Word :=
  match s.runState with
  | .halted => some (s.reg .rax)
  | _ => none

/-- R200 `READ_STATE`: the register file, the flags and the memory. -/
def readState (s : State) : RegFile × Flags × Memory := (s.regs, s.flags, s.mem)

end Sys2Proof.Machine
end

