-- ==== Sys2Proof/Safety.lean ====
section
/-! DEFINITION. The terms that claims use: when an operand can be read or written, what a completed instruction and a fault
leave, and the invariant of the machine. -/

namespace Sys2Proof.Safety

open Sys2Proof.Machine

/-! ## When an access succeeds (spec/20_memory.md R41 to R43) -/

/-- An 8-byte access at `a` lies in the window (R41). -/
def inWindow8 (p : Params) (a : Word) : Bool := decide (p.memBot ≤ a.toNat) && decide (a.toNat + 8 ≤ p.memTop)

/-- A data read can take a byte from the cell: it is a raw byte, or `INSN_CELL_READ` = zero (R42). -/
def cellReadable (p : Params) : SymByte → Bool
  | .byte _ => true
  | .head _ => p.insnCellRead == .zero
  | .filler => p.insnCellRead == .zero

/-- Each of the 8 cells from `a` can be read. -/
def cellsReadable (s : State) (a : Word) : Bool :=
  (List.range 8).all fun i => cellReadable s.params (s.cell (a.toNat + i))

/-- An 8-byte data read at `a` succeeds. -/
def readable (s : State) (a : Word) : Bool := inWindow8 s.params a && cellsReadable s a

/-- Reading the operand succeeds (R84). -/
def operandReadable (s : State) : Operand → Bool
  | .imm _ => true
  | .reg _ => true
  | .ind m => readable s (s.ea m)

/-- Writing the operand succeeds (R85). -/
def operandWritable (s : State) : Operand → Bool
  | .imm _ => false
  | .reg _ => true
  | .ind m => inWindow8 s.params (s.ea m)

/-- The value of a readable operand (R84). -/
def operandValue (s : State) : Operand → Word
  | .imm i => i
  | .reg r => s.reg r
  | .ind m => s.wordAt (s.ea m).toNat

/-! ## What an instruction leaves -/

/-- Every cell is as before. -/
def sameMemory (s t : State) : Prop := ∀ a : Nat, t.cell a = s.cell a

/-- The 8 cells from `a` hold the bytes of `v`, little-endian, and every other cell is as before (R43, R44). -/
def storedWord (s t : State) (a v : Word) : Prop :=
  (∀ i, i < 8 → t.cell (a.toNat + i) = .byte (byteOf v i)) ∧
    ∀ b : Nat, b < a.toNat ∨ a.toNat + 8 ≤ b → t.cell b = s.cell b

/-- Every register but those listed is as before. -/
def sameRegsBut (rs : List Reg) (s t : State) : Prop := ∀ q, q ∉ rs → t.reg q = s.reg q

/-- The parameters, the status registers and the counter of free values are as before. -/
def sameStatus (s t : State) : Prop :=
  t.params = s.params ∧ t.runState = s.runState ∧ t.faultKind = s.faultKind ∧ t.faultCause = s.faultCause ∧
    t.faultAddr = s.faultAddr ∧ t.faultIp = s.faultIp ∧ t.faultOpc = s.faultOpc ∧ t.freeDraws = s.freeDraws

/-- `v` has been written to the destination, and no other register or cell has changed; the address of an indirect
destination is `State.ea` of the state before (R85, R86). -/
def wroteOperand (s t : State) (dst : Operand) (v : Word) : Prop :=
  match dst with
  | .imm _ => False
  | .reg r => t.reg r = v ∧ sameRegsBut [r] s t ∧ sameMemory s t
  | .ind m => sameRegsBut [] s t ∧ storedWord s t (s.ea m) v

/-- `exec i s` answers a next state in which `v` has been written to `dst`, the flags are `f`, and nothing else has
changed. -/
def completesWith (i : Instr) (s : State) (dst : Operand) (v : Word) (f : Flags) : Prop :=
  ∃ t, exec i s = .next t ∧ wroteOperand s t dst v ∧ t.flags = f ∧ sameStatus s t

/-- The flags of a checked-arithmetic result `r` whose exact value is `n` (spec/40_execution_core.md R87, R88). -/
def flagsOfExact (n : Int) (r : Word) : Flags where
  OF := decide (n < -2 ^ 63 ∨ 2 ^ 63 ≤ n)
  SF := r.msb
  ZF := decide (r = 0)

/-- The flags of a logical result (R89). -/
def flagsOfLogic (r : Word) : Flags where
  OF := false
  SF := r.msb
  ZF := decide (r = 0)

/-- The flags of a shift by `a` with result `r`, from the flags before; `o` is the overflow of a shift by exactly 1
(spec/43_shift.md R124). -/
def flagsOfShift (a : Nat) (r : Word) (o : Bool) (before : Flags) : Flags where
  OF := if a = 1 then o else before.OF
  SF := if a = 0 then before.SF else r.msb
  ZF := if a = 0 then before.ZF else decide (r = 0)

/-! ## Faults (spec/60_exceptions.md R160, R161) -/

/-- `STATE` is FAULTED and the five fault registers hold these values. -/
def faultRecorded (t : State) (kind : FaultKind) (cause : BitVec 4) (addr ip : Word) (opc : Byte) : Prop :=
  t.runState = .faulted ∧ t.faultKind = kind ∧ t.faultCause = cause ∧ t.faultAddr = addr ∧ t.faultIp = ip ∧
    t.faultOpc = opc

/-- `exec i s` takes this fault; `FAULT_IP` is `pc0`, 4 below the advanced `rip`, and `FAULT_OPC` is the opcode number. -/
def execFaults (i : Instr) (s : State) (kind : FaultKind) (cause : BitVec 4) (addr : Word) : Prop :=
  ∃ t, exec i s = .next t ∧ faultRecorded t kind cause addr (s.reg .rip - 4) i.abs.op.num

/-- The cause codes that R160 lists for each kind. -/
def causeLegal (kind : FaultKind) (cause : BitVec 4) : Bool :=
  match kind with
  | .none => cause == 0
  | .address => decide (1 ≤ cause.toNat) && decide (cause.toNat ≤ 5)
  | .decode => decide (1 ≤ cause.toNat) && decide (cause.toNat ≤ 6)
  | .malformed => decide (1 ≤ cause.toNat) && decide (cause.toNat ≤ 4)

/-- The status registers as R29 and R160 say they stand: all zero unless `STATE` is FAULTED; after a fault a kind with one
of its causes, `FAULT_ADDR` = `FAULT_IP` for decode, malformed-operand and fetch faults, and `FAULT_OPC` = 0 for fetch
faults. -/
def statusLegal (s : State) : Prop :=
  (s.runState ≠ .faulted →
    s.faultKind = .none ∧ s.faultCause = 0 ∧ s.faultAddr = 0 ∧ s.faultIp = 0 ∧ s.faultOpc = 0) ∧
  (s.runState = .faulted →
    s.faultKind ≠ .none ∧ causeLegal s.faultKind s.faultCause = true ∧
      (s.faultKind = .decode ∨ s.faultKind = .malformed → s.faultAddr = s.faultIp) ∧
      (s.faultKind = .address ∧ s.faultCause.toNat ≤ 2 → s.faultAddr = s.faultIp ∧ s.faultOpc = 0))

/-- The invariant of the machine: parameters that meet R6, memory in canonical form and inside the window, legal status
registers, and `STATE` agreeing with `rip` (R81). -/
def Inv (s : State) : Prop :=
  s.params.ok = true ∧ Memory.wf s.params s.mem = true ∧ statusLegal s ∧
    (s.runState = .running → s.reg .rip ≠ s.params.haltAddr) ∧
    (s.runState = .halted → s.reg .rip = s.params.haltAddr)

/-! ## Decoding and shapes (spec/30_encoding.md) -/

/-- The operand is what kind `k`, register index `r` and immediate `i` stand for (R65). -/
def operandIs (op : Operand) (k : BitVec 3) (r : BitVec 5) (i : Word) : Prop :=
  match op with
  | .imm v => k = 0 ∧ v = i
  | .reg q => k = 1 ∧ q.index = r
  | .ind (.ind1 v) => k = 2 ∧ v = i
  | .ind (.ind2 q) => k = 3 ∧ q.index = r
  | .ind (.ind3 v q) => k = 4 ∧ v = i ∧ q.index = r

/-- The check of a used descriptor in R68: the kind first, then the register index of a kind that uses one. -/
def descriptorFault (k : BitVec 3) (r : BitVec 5) : Option DecodeFault :=
  if 4 < k.toNat then some .operandKind
  else if (k = 1 ∨ k = 3 ∨ k = 4) ∧ 16 < r.toNat then some .registerIndex
  else none

/-- The operand count of the `OPC` numbers 0x01 to 0x17 (the NOPS column of R63). -/
def countOf (opc : Nat) : Nat :=
  if opc = 0x16 then 0
  else if opc ∈ [0x01, 0x02, 0x03, 0x07, 0x11, 0x12, 0x13, 0x14, 0x15, 0x17] then 1
  else 2

/-- The checks of R68 in their order, over the bits of the head word (R61). -/
def decodeVerdict (w : HeadWord) : Option DecodeFault :=
  let opc := (w.extractLsb' 0 8).toNat
  let cc := (w.extractLsb' 8 3).toNat
  let nops := (w.extractLsb' 11 2).toNat
  if w.extractLsb' 13 3 ≠ 0 then some .reservedBits
  else if opc < 0x01 ∨ 0x17 < opc then some .reservedOpcode
  else if (opc = 0x11 ∨ opc = 0x17) ∧ 5 < cc then some .conditionCode
  else if ¬(opc = 0x11 ∨ opc = 0x17) ∧ cc ≠ 0 then some .conditionCode
  else if nops ≠ countOf opc then some .operandCount
  else if nops = 0 then none
  else match descriptorFault (w.extractLsb' 16 3) (w.extractLsb' 19 5) with
    | some f => some f
    | none => if nops = 1 then none else descriptorFault (w.extractLsb' 24 3) (w.extractLsb' 27 5)

/-- The instruction is a shift. -/
def isShift : Instr → Bool
  | .sarq _ _ => true
  | .shlq _ _ => true
  | .shrq _ _ => true
  | _ => false

/-- The instruction is LEAQ. -/
def isLeaq : Instr → Bool
  | .leaq _ _ => true
  | _ => false

/-- Operand 0 is of a kind that the table of R72 allows, and names no `rip`. -/
def operand0Fine (i : Instr) : Bool :=
  match i with
  | .incq d | .decq d | .negq d | .notq d | .sete d | .setne d | .setg d | .setge d | .setl d | .setle d | .popq d =>
    d.destination
  | .pushq s | .jmp s | .callq s | .je s | .jne s | .jg s | .jge s | .jl s | .jle s => s.anySource
  | .retq => true
  | .addq s _ | .subq s _ | .imulq s _ | .andq s _ | .orq s _ | .xorq s _ | .movq s _ | .cmpq s _ => s.anySource
  | .leaq m _ => m.indirectSource
  | .sarq a _ | .shlq a _ | .shrq a _ => a.shiftAmount

/-- The operand names `rip` as a register or a base (R72, cause 1). -/
def mentionsRip : Operand → Bool
  | .imm _ => false
  | .reg r => r == .rip
  | .ind m => !m.noRip

/-- The cause code R72 gives an instruction that is not well formed: operand 0 is judged before operand 1, and `rip`
before the kind. -/
def shapeCause (i : Instr) : BitVec 4 :=
  match i.abs.operands with
  | a :: rest =>
    if operand0Fine i = false then
      if mentionsRip a then 1 else if isLeaq i then 4 else if isShift i then 3 else 2
    else match rest with
      | b :: _ => if mentionsRip b then 1 else 2
      | [] => 0
  | [] => 0

/-! ## Families of instructions -/

/-- Instructions that overwrite `rip` (spec/10_state.md R23). -/
def isControlTransfer : Instr → Bool
  | .jmp _ | .callq _ | .retq | .je _ | .jne _ | .jg _ | .jge _ | .jl _ | .jle _ => true
  | _ => false

/-- Instructions that may write the flags (R24). -/
def writesFlags : Instr → Bool
  | .incq _ | .decq _ | .negq _ | .addq _ _ | .subq _ _ | .imulq _ _ | .cmpq _ _ => true
  | .notq _ | .andq _ _ | .orq _ _ | .xorq _ _ => true
  | .sarq _ _ | .shlq _ _ | .shrq _ _ => true
  | _ => false

/-- The condition an instruction reads the flags through, if it reads them (R25). -/
def conditionOf : Instr → Option Cond
  | .sete _ | .je _ => some .eq
  | .setne _ | .jne _ => some .neq
  | .setg _ | .jg _ => some .gt
  | .setge _ | .jge _ => some .ge
  | .setl _ | .jl _ => some .lt
  | .setle _ | .jle _ => some .le
  | _ => none

/-- The instruction reads and then writes its last operand, which is its destination (R47, read-modify-write; CMPQ is
apart, since it writes nothing). -/
def modified : Instr → Option Operand
  | .incq d | .decq d | .negq d | .notq d => some d
  | .addq _ d | .subq _ d | .imulq _ d | .andq _ d | .orq _ d | .xorq _ d => some d
  | .sarq _ d | .shlq _ d | .shrq _ d => some d
  | .sete d | .setne d | .setg d | .setge d | .setl d | .setle d => some d
  | _ => none

/-- The operand an instruction reads first, as a source (R47): operand 0 of every form that has a source of any kind, and
the amount of a shift. -/
def sourceOf : Instr → Option Operand
  | .addq s _ | .subq s _ | .imulq s _ | .andq s _ | .orq s _ | .xorq s _ | .cmpq s _ | .movq s _ => some s
  | .sarq a _ | .shlq a _ | .shrq a _ => some a
  | .pushq s | .jmp s | .callq s | .je s | .jne s | .jg s | .jge s | .jl s | .jle s => some s
  | _ => none

/-- The second operand an instruction reads: a modified destination, or the destination of CMPQ. -/
def secondRead : Instr → Option Operand
  | .cmpq _ d => some d
  | i => modified i

/-! ## Programs of the image producer (spec/70_reset_and_hazards.md R190 to R195) -/

/-- The instructions of an element: those of a code block, none of a data block (R190). -/
def codeOf (e : Element) : List AsmInstr :=
  match e.body with
  | .code is => is
  | .data _ => []

/-- The items of an element: those of a data block, none of a code block (R190). -/
def itemsOf (e : Element) : List DataItem :=
  match e.body with
  | .code _ => []
  | .data ds => ds

/-- R191: "a terminated text literal costs length+1 bytes; a 64-bit literal costs 8 bytes". -/
def itemCost : DataItem → Nat
  | .text chars => chars.length + 1
  | .quad _ => 8

/-- R191: where the layout puts an element of a program, given the elements before it: a code element after the code before
it, 4 cells an instruction, from `MEM_BOT`; a data element after all the code and the data before it. -/
def elementAddress (p : Params) (prog before : List Element) (e : Element) : Nat :=
  match e.body with
  | .code _ => p.memBot + 4 * (before.flatMap codeOf).length
  | .data _ => p.memBot + 4 * (prog.flatMap codeOf).length + ((before.flatMap itemsOf).map itemCost).sum

/-- R193: the value of a literal when labels have these addresses. -/
def litAt (addr : Label → Word) : AsmLit → Word
  | .lit v => v
  | .label l => addr l

/-- R193: the operand when labels have these addresses. -/
def operandAt (addr : Label → Word) : AsmOperand → Operand
  | .imm i => .imm (litAt addr i)
  | .reg r => .reg r
  | .ind1 i => .ind (.ind1 (litAt addr i))
  | .ind2 r => .ind (.ind2 r)
  | .ind3 i r => .ind (.ind3 (litAt addr i) r)

/-- R193: the instruction when labels have these addresses. -/
def instrAt (addr : Label → Word) (i : AsmInstr) : AbsInstr := ⟨i.op, i.operands.map (operandAt addr)⟩

/-- R193, R194: the bytes of a data item when labels have these addresses. -/
def itemBytes (addr : Label → Word) : DataItem → List Byte
  | .text chars => chars ++ [0]
  | .quad v => (List.range 8).map (byteOf (litAt addr v))

/-- The labels a literal refers to (R193). -/
def litLabels : AsmLit → List Label
  | .lit _ => []
  | .label l => [l]

/-- The labels an operand refers to (R193). -/
def operandLabels : AsmOperand → List Label
  | .imm i => litLabels i
  | .reg _ => []
  | .ind1 i => litLabels i
  | .ind2 _ => []
  | .ind3 i _ => litLabels i

/-- The labels a data item refers to (R193). -/
def itemLabels : DataItem → List Label
  | .text _ => []
  | .quad v => litLabels v

/-- The labels an element refers to (R193). -/
def labelsIn (e : Element) : List Label :=
  (codeOf e).flatMap (fun i => i.operands.flatMap operandLabels) ++ (itemsOf e).flatMap itemLabels

end Sys2Proof.Safety
end

