-- ==== Sys2Proof/Certificates/Slice0/Obligations.lean ====
section
/-! DEFINITION. The statements for the provers. `exec i s` takes the state after the `rip` advance: `s.reg .rip` is
`pc0 + 4` (spec/40_execution_core.md R82). -/

open Sys2Proof Sys2Proof.Machine Sys2Proof.Safety

/-! ## Encoding and decoding (spec/30_encoding.md) -/

/-- Every instruction, with every operand at every value, is decoded back from its head word (R61 to R68). -/
def Obligations.DecodeEncodeRoundTrip : Prop :=
  ∀ i : Instr, decode (encode i) = .ok i

/-- A canonical head word that decodes is the head word of what it decodes to, and every encoding is canonical (R69,
decision D14). -/
def Obligations.CanonicalWordsEncodeBack : Prop :=
  (∀ (w : HeadWord) (i : Instr), decode w = .ok i → HeadWord.canonical w = true → encode i = w) ∧
    ∀ i : Instr, HeadWord.canonical (encode i) = true

/-- R68: the checks run in their order and the first that fails is reported; where none fails, the decoded instruction
has the word's `OPC`, `CC`, number of operands, and operands. -/
def Obligations.DecodeChecksRunInOrder : Prop :=
  ∀ w : HeadWord,
    match decodeVerdict w with
    | some f => decode w = .error f
    | none => ∃ i, decode w = .ok i ∧ i.abs.op.num = w.extractLsb' 0 8 ∧ i.abs.op.ccNum = w.extractLsb' 8 3 ∧
        i.abs.operands.length = (w.extractLsb' 11 2).toNat ∧
        (∀ op, i.abs.operands[0]? = some op →
          operandIs op (w.extractLsb' 16 3) (w.extractLsb' 19 5) (w.extractLsb' 32 64)) ∧
        ∀ op, i.abs.operands[1]? = some op →
          operandIs op (w.extractLsb' 24 3) (w.extractLsb' 27 5) (w.extractLsb' 96 64)

/-- R69 (decision D14): a field that the decoded instruction does not use is ignored, whatever it holds. -/
def Obligations.UnusedFieldsAreIgnored : Prop :=
  ∀ (h : HeadFields) (r : BitVec 5) (v : Word) (d : Descriptor),
    (h.a.kind = 0 ∨ h.a.kind = 2 → decode (pack { h with a := { h.a with reg := r } }) = decode (pack h)) ∧
    (h.a.kind = 1 ∨ h.a.kind = 3 → decode (pack { h with a := { h.a with imm := v } }) = decode (pack h)) ∧
    (h.b.kind = 0 ∨ h.b.kind = 2 → decode (pack { h with b := { h.b with reg := r } }) = decode (pack h)) ∧
    (h.b.kind = 1 ∨ h.b.kind = 3 → decode (pack { h with b := { h.b with imm := v } }) = decode (pack h)) ∧
    (h.nops.toNat < 2 → decode (pack { h with b := d }) = decode (pack h)) ∧
    (h.nops = 0 → decode (pack { h with a := d }) = decode (pack h))

/-- Words written out from R61, R63, R64 and R65 decode to the instructions they stand for: `addq %rbx, %rax` (R74),
`shrq %rcx, %rax`, `movq $42, -8(%rbx)`, `setl %rdx`, `retq` and `jg 0x400008`. -/
def Obligations.WrittenOutWordsDecode : Prop :=
  decode 0x01091004 = .ok (.addq (.reg .rbx) (.reg .rax)) ∧
  decode 0x0111100D = .ok (.shrq (.reg .rcx) (.reg .rax)) ∧
  decode 0xFFFFFFFFFFFFFFF8000000000000002A0C00100F =
    .ok (.movq (.imm 42) (.ind (.ind3 0xFFFFFFFFFFFFFFF8 .rbx))) ∧
  decode 0x00190C11 = .ok (.setl (.reg .rdx)) ∧
  decode 0x00000016 = .ok .retq ∧
  decode 0x40000800000A17 = .ok (.jg (.imm 0x400008))

/-! ## The step (spec/40_execution_core.md R80 to R82, spec/20_memory.md R45, spec/60_exceptions.md R161) -/

/-- R82: when `rip` addresses a head cell of the window whose word decodes, the step is `exec` of the instruction with
`rip` advanced by 4, and then the halt test. -/
def Obligations.StepRunsDecodedInstruction : Prop :=
  ∀ (s : State) (w : HeadWord) (i : Instr),
    s.runState = .running → s.params.memBot ≤ (s.reg .rip).toNat → (s.reg .rip).toNat < s.params.memTop →
    s.cell (s.reg .rip).toNat = .head w → decode w = .ok i →
    ∃ t, exec i (s.setReg .rip (s.reg .rip + 4)) = .next t ∧
      step s = .next
        (if t.runState = .running ∧ t.reg .rip = t.params.haltAddr then { t with runState := .halted } else t)

/-- R45: a fetch outside the window or of a cell that is no head is an address-space fault (causes 1 and 2) about the
fetch address; a head in the window is fetched, whatever the cells after it hold (decision D36). -/
def Obligations.FetchFaultsAndFetches : Prop :=
  ∀ s : State, s.runState = .running →
    (¬(s.params.memBot ≤ (s.reg .rip).toNat ∧ (s.reg .rip).toNat < s.params.memTop) →
      ∃ t, step s = .next t ∧ faultRecorded t .address 1 (s.reg .rip) (s.reg .rip) 0) ∧
    (s.params.memBot ≤ (s.reg .rip).toNat ∧ (s.reg .rip).toNat < s.params.memTop →
      (∀ w, s.cell (s.reg .rip).toNat ≠ .head w) →
      ∃ t, step s = .next t ∧ faultRecorded t .address 2 (s.reg .rip) (s.reg .rip) 0) ∧
    (s.params.memBot ≤ (s.reg .rip).toNat ∧ (s.reg .rip).toNat < s.params.memTop →
      ∀ w, s.cell (s.reg .rip).toNat = .head w → fetchCell s (s.reg .rip) = .ok w)

/-- R68, R160, R161: a head word that does not decode makes the step a decode fault with the cause code of the first
check that fails, about the instruction's own address, and records bits 7 to 0 of the word. -/
def Obligations.UndecodableWordsFault : Prop :=
  ∀ (s : State) (w : HeadWord) (f : DecodeFault),
    s.runState = .running → s.params.memBot ≤ (s.reg .rip).toNat → (s.reg .rip).toNat < s.params.memTop →
    s.cell (s.reg .rip).toNat = .head w → decodeVerdict w = some f →
    ∃ t, step s = .next t ∧
      faultRecorded t .decode
        (match f with
          | .reservedBits => 1 | .reservedOpcode => 2 | .conditionCode => 3 | .operandCount => 4 | .operandKind => 5
          | .registerIndex => 6)
        (s.reg .rip) (s.reg .rip) (w.extractLsb' 0 8)

/-- R80, R30, R161: a step is enabled only when `STATE` = RUNNING; then it either completes or raises a fault. That a
step that faults also answers a next state, in which the fault is recorded, is log entry 6 (DEDUCED); that the
parameters are a field of the state, which the step keeps, is R30 with log entry 1 (DESIGN CHOICE). In no other state is
there a next state. -/
def Obligations.StepEnabledOnlyWhenRunning : Prop :=
  ∀ s : State,
    (s.runState = .running → ∃ t, step s = .next t ∧ t.params = s.params) ∧
    (s.runState ≠ .running → ∀ t, step s ≠ .next t)

/-- R81 (decision D37): after a step that completes, and after a load, `STATE` is HALTED exactly when `rip` equals
`HALT_ADDR`; a halted engine has no further step (a stuck state of the model, log entry 8), and the result is `x[0]`. -/
def Obligations.HaltedExactlyAtTheSentinel : Prop :=
  (∀ s t : State, step s = .next t → t.runState ≠ .faulted →
    (t.runState = .halted ↔ t.reg .rip = t.params.haltAddr)) ∧
  (∀ (p : Params) (img : Image) (s : State), load p img = .next s →
    (s.runState = .halted ↔ s.reg .rip = s.params.haltAddr)) ∧
  ∀ s : State, s.runState = .halted → step s = .fault .halted ∧ readResult s = some (s.reg .rax)

/-- R161: a step that faults records `FAULT_IP` = `pc0` and `FAULT_OPC` = bits 7 to 0 of the fetched word (0 if the
fetch failed), never steps again and has no result; it leaves the flags and the memory of the start of the step, and its
registers but for `rip` advanced and `rsp` lowered by 8 (decision D29; log entry 7: which of these writes had landed is
a free value, and the model takes the prefix to be of the writes made before the fault). -/
def Obligations.FaultRecordsAndKeepsAPrefix : Prop :=
  ∀ s t : State, step s = .next t → t.runState = .faulted →
    t.faultIp = s.reg .rip ∧
    (∀ w, fetchCell s (s.reg .rip) = .ok w → t.faultOpc = w.extractLsb' 0 8) ∧
    (∀ e, fetchCell s (s.reg .rip) = .error e → t.faultOpc = 0) ∧
    step t = .fault .faulted ∧ readResult t = none ∧
    t.flags = s.flags ∧ t.mem = s.mem ∧
    (t.regs = s.regs ∨ t.regs = (s.setReg .rip (s.reg .rip + 4)).regs ∨
      t.regs = ((s.setReg .rip (s.reg .rip + 4)).setReg .rsp (s.reg .rsp - 8)).regs)

/-! ## Faults of an instruction (spec/60_exceptions.md R160 to R162) -/

/-- R72 (decisions D15, D23, D24): every instruction with an operand of a kind its table does not allow takes a
malformed-operand fault, with the cause of the first operand at fault; an instruction whose operands are allowed takes
none, and if it faults at all, it is an address-space fault. -/
def Obligations.IllFormedOperandsFault : Prop :=
  ∀ (i : Instr) (s : State),
    (i.wellFormed = false → execFaults i s .malformed (shapeCause i) (s.reg .rip - 4)) ∧
    (i.wellFormed = true → s.runState = .running →
      ∃ t, exec i s = .next t ∧ (t.runState = .running ∨ t.runState = .faulted ∧ t.faultKind = .address))

/-- R42, R84, R162 (decisions D10, D27, D42): the source is read first, taken branch or not, and a source that cannot be
read is an address-space fault about its address: cause 3 outside the window, cause 5 on a head or filler cell. -/
def Obligations.UnreadableSourceFaults : Prop :=
  ∀ (i : Instr) (s : State) (m : Indirect), i.wellFormed = true → sourceOf i = some (.ind m) →
    readable s (s.ea m) = false →
    execFaults i s .address (if inWindow8 s.params (s.ea m) then 5 else 3) (s.ea m)

/-- R42, R86, R162 (decisions D28, D42): after the source, a modified destination or the second operand of CMPQ is read,
and one that cannot be read is an address-space fault about its address. -/
def Obligations.UnreadableDestinationFaults : Prop :=
  ∀ (i : Instr) (s : State) (m : Indirect), i.wellFormed = true → secondRead i = some (.ind m) →
    (∀ src, sourceOf i = some src → operandReadable s src = true) →
    readable s (s.ea m) = false →
    execFaults i s .address (if inWindow8 s.params (s.ea m) then 5 else 3) (s.ea m)

/-- R43, R85: MOVQ, LEAQ and POPQ into an address whose 8 cells are not all in the window are address-space faults with
cause 4 about that address, once what they read has been read. -/
def Obligations.UnwritableDestinationFaults : Prop :=
  ∀ (s : State) (m : Indirect), m.noRip = true → inWindow8 s.params (s.ea m) = false →
    (∀ src : Operand, src.anySource = true → operandReadable s src = true →
      execFaults (.movq src (.ind m)) s .address 4 (s.ea m)) ∧
    (∀ n : Indirect, n.noRip = true → execFaults (.leaq (.ind n) (.ind m)) s .address 4 (s.ea m)) ∧
    (readable s (s.reg .rsp) = true → execFaults (.popq (.ind m)) s .address 4 (s.ea m))

/-- R140, R143: a push or call whose `rsp - 8` is no valid 8-byte address faults with cause 4; R141, R144: a pop or
return whose `rsp` cannot be read faults with cause 3 or 5. -/
def Obligations.StackAccessFaults : Prop :=
  ∀ s : State,
    (inWindow8 s.params (s.reg .rsp - 8) = false →
      ∀ op : Operand, op.anySource = true → operandReadable s op = true →
        execFaults (.pushq op) s .address 4 (s.reg .rsp - 8) ∧
        execFaults (.callq op) s .address 4 (s.reg .rsp - 8)) ∧
    (readable s (s.reg .rsp) = false →
      execFaults .retq s .address (if inWindow8 s.params (s.reg .rsp) then 5 else 3) (s.reg .rsp) ∧
      ∀ dst : Operand, dst.destination = true →
        execFaults (.popq dst) s .address (if inWindow8 s.params (s.reg .rsp) then 5 else 3) (s.reg .rsp))

/-- The kind and cause codes of R160 (decision D30), for every fault that a head word can meet. -/
def Obligations.FaultCodesAreTabled : Prop :=
  ([.fetchWindow, .fetchNotHead, .readWindow, .writeWindow, .readInsnCell,
    .reservedBits, .reservedOpcode, .conditionCode, .operandCount, .operandKind, .registerIndex,
    .ripNamed, .immediateDestination, .shiftAmount, .leaqSource] : List Cause).map
      (fun c => (c.kind.code.toNat, c.code.toNat)) =
    [(1, 1), (1, 2), (1, 3), (1, 4), (1, 5), (2, 1), (2, 2), (2, 3), (2, 4), (2, 5), (2, 6), (3, 1), (3, 2), (3, 3), (3, 4)]

/-! ## Arithmetic (spec/41_arithmetic.md, spec/40_execution_core.md R87, R88) -/

/-- R87 (decision D22): checked arithmetic gives the low 64 bits of the exact signed result, which are those of the
unsigned one, and reports exactly the results that do not fit in 64 signed bits. -/
def Obligations.CheckedArithmeticIsExact : Prop :=
  ∀ d s : Word,
    cadd d s = (d + s, decide (¬(-2 ^ 63 ≤ d.toInt + s.toInt ∧ d.toInt + s.toInt < 2 ^ 63))) ∧
    csub d s = (d - s, decide (¬(-2 ^ 63 ≤ d.toInt - s.toInt ∧ d.toInt - s.toInt < 2 ^ 63))) ∧
    cneg d = (-d, decide (¬(-2 ^ 63 ≤ -d.toInt ∧ -d.toInt < 2 ^ 63))) ∧
    ((cneg d).2 = true ↔ d = 0x8000000000000000) ∧
    cmul d s = (d * s, decide (¬(-2 ^ 63 ≤ d.toInt * s.toInt ∧ d.toInt * s.toInt < 2 ^ 63)))

/-- R100, R101, R102: INCQ, DECQ and NEGQ complete on every readable destination; only the destination and the flags
change. -/
def Obligations.UnaryArithmeticCompletes : Prop :=
  ∀ (dst : Operand) (s : State), dst.destination = true → operandReadable s dst = true →
    let d := operandValue s dst
    completesWith (.incq dst) s dst (d + 1) (flagsOfExact (d.toInt + 1) (d + 1)) ∧
    completesWith (.decq dst) s dst (d - 1) (flagsOfExact (d.toInt - 1) (d - 1)) ∧
    completesWith (.negq dst) s dst (-d) (flagsOfExact (-d.toInt) (-d))

/-- R103, R104, R105: ADDQ, SUBQ (destination minus source) and IMULQ complete on every readable source and destination;
only the destination and the flags change. -/
def Obligations.BinaryArithmeticCompletes : Prop :=
  ∀ (src dst : Operand) (s : State), src.anySource = true → dst.destination = true →
    operandReadable s src = true → operandReadable s dst = true →
    let d := operandValue s dst
    let v := operandValue s src
    completesWith (.addq src dst) s dst (d + v) (flagsOfExact (d.toInt + v.toInt) (d + v)) ∧
    completesWith (.subq src dst) s dst (d - v) (flagsOfExact (d.toInt - v.toInt) (d - v)) ∧
    completesWith (.imulq src dst) s dst (d * v) (flagsOfExact (d.toInt * v.toInt) (d * v))

/-! ## Logic and shifts (spec/42_logical.md, spec/43_shift.md) -/

/-- R110 to R113, R89: NOTQ, ANDQ, ORQ and XORQ complete on every readable source and destination; OF is cleared and
only the destination and the flags change. -/
def Obligations.LogicalCompletes : Prop :=
  ∀ (src dst : Operand) (s : State), src.anySource = true → dst.destination = true →
    operandReadable s src = true → operandReadable s dst = true →
    let d := operandValue s dst
    let v := operandValue s src
    completesWith (.notq dst) s dst (~~~d) (flagsOfLogic (~~~d)) ∧
    completesWith (.andq src dst) s dst (d &&& v) (flagsOfLogic (d &&& v)) ∧
    completesWith (.orq src dst) s dst (d ||| v) (flagsOfLogic (d ||| v)) ∧
    completesWith (.xorq src dst) s dst (d ^^^ v) (flagsOfLogic (d ^^^ v))

/-- R120 to R124 (decisions D20, D21): SARQ, SHLQ and SHRQ complete on every amount and readable destination, with the
amount's low 6 bits; only the destination and the flags change, no flag for an amount of 0, and OF only for an amount of
1. -/
def Obligations.ShiftsComplete : Prop :=
  ∀ (amt dst : Operand) (s : State), amt.shiftAmount = true → dst.destination = true → operandReadable s dst = true →
    let d := operandValue s dst
    let a := (operandValue s amt).toNat % 64
    completesWith (.sarq amt dst) s dst (d.sshiftRight a) (flagsOfShift a (d.sshiftRight a) false s.flags) ∧
    completesWith (.shlq amt dst) s dst (d <<< a) (flagsOfShift a (d <<< a) (d.getLsbD 63 ^^ d.getLsbD 62) s.flags) ∧
    completesWith (.shrq amt dst) s dst (d >>> a) (flagsOfShift a (d >>> a) (d.getLsbD 63) s.flags)

/-! ## Compare and data movement (spec/44_compare_and_data.md) -/

/-- R130 (decision D24): CMPQ completes on any two readable operands; it sets the flags of destination minus source and
changes nothing else. -/
def Obligations.CompareCompletes : Prop :=
  ∀ (src dst : Operand) (s : State), src.anySource = true → dst.anySource = true →
    operandReadable s src = true → operandReadable s dst = true →
    let d := operandValue s dst
    let v := operandValue s src
    ∃ t, exec (.cmpq src dst) s = .next t ∧ t.flags = flagsOfExact (d.toInt - v.toInt) (d - v) ∧
      sameRegsBut [] s t ∧ sameMemory s t ∧ sameStatus s t

/-- R131: MOVQ completes from any readable source to any writable destination; only the destination changes. -/
def Obligations.MoveCompletes : Prop :=
  ∀ (src dst : Operand) (s : State), src.anySource = true → dst.destination = true →
    operandReadable s src = true → operandWritable s dst = true →
    completesWith (.movq src dst) s dst (operandValue s src) s.flags

/-- R132 (decision D23): LEAQ completes from any indirect source, in the window or not, to any writable destination: it
writes the address (for `Ind3` the sum modulo 2^64) and reads nothing there; only the destination changes. -/
def Obligations.LoadAddressCompletes : Prop :=
  ∀ (m : Indirect) (dst : Operand) (s : State), m.noRip = true → dst.destination = true →
    operandWritable s dst = true →
    completesWith (.leaq (.ind m) dst) s dst
      (match m with
        | .ind1 i => i
        | .ind2 r => s.reg r
        | .ind3 i r => s.reg r + i)
      s.flags

/-- R133 (decision D25): the six SETcc complete on every readable destination: bits 63 to 8 are kept and bits 7 to 0
become 1 or 0; only the destination changes. -/
def Obligations.SetOnConditionCompletes : Prop :=
  ∀ (dst : Operand) (s : State), dst.destination = true → operandReadable s dst = true →
    let r := fun b : Bool => (operandValue s dst &&& 0xFFFFFFFFFFFFFF00) ||| (if b then 1 else 0)
    completesWith (.sete dst) s dst (r (s.cond .eq)) s.flags ∧
    completesWith (.setne dst) s dst (r (s.cond .neq)) s.flags ∧
    completesWith (.setg dst) s dst (r (s.cond .gt)) s.flags ∧
    completesWith (.setge dst) s dst (r (s.cond .ge)) s.flags ∧
    completesWith (.setl dst) s dst (r (s.cond .lt)) s.flags ∧
    completesWith (.setle dst) s dst (r (s.cond .le)) s.flags

/-! ## Stack and control transfer (spec/45_stack_and_control.md) -/

/-- R140: PUSHQ completes when its source can be read and `rsp - 8` is a valid 8-byte address: the source's value, read
before `rsp` changes, stands at the new `rsp`; only `rsp` and those 8 cells change. -/
def Obligations.PushCompletes : Prop :=
  ∀ (src : Operand) (s : State), src.anySource = true → operandReadable s src = true →
    inWindow8 s.params (s.reg .rsp - 8) = true →
    ∃ t, exec (.pushq src) s = .next t ∧ t.reg .rsp = s.reg .rsp - 8 ∧ sameRegsBut [.rsp] s t ∧
      storedWord s t (s.reg .rsp - 8) (operandValue s src) ∧ t.flags = s.flags ∧ sameStatus s t

/-- R141 (decision D26): POPQ completes when the word at `rsp` can be read and the destination written: into a register
but `rsp`, into `rsp` itself (which ends as the word plus 8), and into memory, at the address `rsp` gives before the
pop. -/
def Obligations.PopCompletes : Prop :=
  ∀ (s : State), readable s (s.reg .rsp) = true →
    let v := s.wordAt (s.reg .rsp).toNat
    (∀ r : Reg, r ≠ .rip → r ≠ .rsp →
      ∃ t, exec (.popq (.reg r)) s = .next t ∧ t.reg r = v ∧ t.reg .rsp = s.reg .rsp + 8 ∧
        sameRegsBut [r, .rsp] s t ∧ sameMemory s t ∧ t.flags = s.flags ∧ sameStatus s t) ∧
    (∃ t, exec (.popq (.reg .rsp)) s = .next t ∧ t.reg .rsp = v + 8 ∧
        sameRegsBut [.rsp] s t ∧ sameMemory s t ∧ t.flags = s.flags ∧ sameStatus s t) ∧
    ∀ m : Indirect, m.noRip = true → inWindow8 s.params (s.ea m) = true →
      ∃ t, exec (.popq (.ind m)) s = .next t ∧ t.reg .rsp = s.reg .rsp + 8 ∧ sameRegsBut [.rsp] s t ∧
        storedWord s t (s.ea m) v ∧ t.flags = s.flags ∧ sameStatus s t

/-- R142, R146: JMP completes on any readable target and puts its value, whatever it is, into `rip`; nothing else
changes. -/
def Obligations.JumpCompletes : Prop :=
  ∀ (tgt : Operand) (s : State), tgt.anySource = true → operandReadable s tgt = true →
    ∃ t, exec (.jmp tgt) s = .next t ∧ t.reg .rip = operandValue s tgt ∧ sameRegsBut [.rip] s t ∧
      sameMemory s t ∧ t.flags = s.flags ∧ sameStatus s t

/-- R143: CALLQ completes when its target can be read and `rsp - 8` is a valid 8-byte address: the advanced `rip` stands
at the new `rsp`, and `rip` holds the target read before `rsp` changed. -/
def Obligations.CallCompletes : Prop :=
  ∀ (tgt : Operand) (s : State), tgt.anySource = true → operandReadable s tgt = true →
    inWindow8 s.params (s.reg .rsp - 8) = true →
    ∃ t, exec (.callq tgt) s = .next t ∧ t.reg .rip = operandValue s tgt ∧ t.reg .rsp = s.reg .rsp - 8 ∧
      sameRegsBut [.rip, .rsp] s t ∧ storedWord s t (s.reg .rsp - 8) (s.reg .rip) ∧ t.flags = s.flags ∧ sameStatus s t

/-- R144: RETQ completes when the word at `rsp` can be read: it goes into `rip` and `rsp` goes up by 8; nothing else
changes. -/
def Obligations.ReturnCompletes : Prop :=
  ∀ s : State, readable s (s.reg .rsp) = true →
    ∃ t, exec .retq s = .next t ∧ t.reg .rip = s.wordAt (s.reg .rsp).toNat ∧ t.reg .rsp = s.reg .rsp + 8 ∧
      sameRegsBut [.rip, .rsp] s t ∧ sameMemory s t ∧ t.flags = s.flags ∧ sameStatus s t

/-- R145 (decision D27): the six Jcc complete on any readable target: taken, `rip` is the target; not taken, it stays
the address of the next instruction; nothing else changes. -/
def Obligations.ConditionalJumpCompletes : Prop :=
  ∀ (tgt : Operand) (s : State), tgt.anySource = true → operandReadable s tgt = true →
    let jumps := fun (i : Instr) (c : Cond) =>
      ∃ t, exec i s = .next t ∧ t.reg .rip = (if s.cond c then operandValue s tgt else s.reg .rip) ∧
        sameRegsBut [.rip] s t ∧ sameMemory s t ∧ t.flags = s.flags ∧ sameStatus s t
    jumps (.je tgt) .eq ∧ jumps (.jne tgt) .neq ∧ jumps (.jg tgt) .gt ∧ jumps (.jge tgt) .ge ∧
      jumps (.jl tgt) .lt ∧ jumps (.jle tgt) .le

/-- R140, R141: a push and then a pop into the same register, other than `rsp`, restores every register and flag. -/
def Obligations.PushThenPopRestores : Prop :=
  ∀ (s : State) (r : Reg), r ≠ .rip → r ≠ .rsp → inWindow8 s.params (s.reg .rsp - 8) = true →
    ∃ t u, exec (.pushq (.reg r)) s = .next t ∧ exec (.popq (.reg r)) t.advance = .next u ∧
      u.flags = s.flags ∧ (∀ q, q ≠ .rip → u.reg q = s.reg q) ∧ u.reg .rip = s.reg .rip + 4

/-- R143, R144: a call and then, at its target, a return resumes at the instruction after the call, with `rsp` and every
other register as before the call. -/
def Obligations.CallThenReturnResumes : Prop :=
  ∀ (s : State) (tgt : Operand), tgt.anySource = true → operandReadable s tgt = true →
    inWindow8 s.params (s.reg .rsp - 8) = true →
    ∃ t u, exec (.callq tgt) s = .next t ∧ t.reg .rip = operandValue s tgt ∧ exec .retq t.advance = .next u ∧
      u.flags = s.flags ∧ ∀ q, u.reg q = s.reg q

/-! ## Conditions (spec/40_execution_core.md R90) -/

/-- R90 (decision D18): what each condition reads, for both settings of `LT_GATED_BY_ZF`; with the default, `Lt` = not
`Ge` and `Le` = `Lt` or `Eq`; the two forms of `Lt` differ only when SF and OF differ and ZF is set. -/
def Obligations.ConditionsAreTabled : Prop :=
  ∀ (p : Params) (f : Flags),
    condHolds p f .eq = f.ZF ∧
    condHolds p f .neq = !f.ZF ∧
    condHolds p f .gt = (!f.ZF && (f.SF == f.OF)) ∧
    condHolds p f .ge = (f.SF == f.OF) ∧
    (p.ltGatedByZf = false → condHolds p f .lt = (f.SF != f.OF)) ∧
    (p.ltGatedByZf = true → condHolds p f .lt = ((f.SF != f.OF) && !f.ZF)) ∧
    condHolds p f .le = (f.ZF || (f.SF != f.OF)) ∧
    (p.ltGatedByZf = false → condHolds p f .lt = !(condHolds p f .ge) ∧
      condHolds p f .le = (condHolds p f .lt || condHolds p f .eq)) ∧
    (condHolds { p with ltGatedByZf := true } f .lt ≠ condHolds { p with ltGatedByZf := false } f .lt ↔
      f.SF ≠ f.OF ∧ f.ZF = true)

/-! ## Memory (spec/20_memory.md) -/

/-- R40: `map` succeeds exactly on the window, with the index counted from `MEM_BOT`, and never wraps or clamps. -/
def Obligations.AddressesMapExactlyInTheWindow : Prop :=
  ∀ (p : Params) (a : Word),
    (p.memBot ≤ a.toNat ∧ a.toNat < p.memTop → mapAddr p a = some (a.toNat - p.memBot) ∧ a.toNat - p.memBot < p.memSize) ∧
    (¬(p.memBot ≤ a.toNat ∧ a.toNat < p.memTop) → mapAddr p a = none)

/-- R41 (decision D8): an access of `n` cells is valid exactly when every one of its cells, counted without wrapping, is
in the window, which is when its first cell is not below the window and its end not above. -/
def Obligations.AccessValidExactlyWhenEveryCellMaps : Prop :=
  ∀ (p : Params) (a : Word) (n : Nat), 0 < n →
    (validAccess p a n = true ↔ ∀ i, i < n → p.memBot ≤ a.toNat + i ∧ a.toNat + i < p.memTop) ∧
    (validAccess p a n = true ↔ p.memBot ≤ a.toNat ∧ a.toNat + n ≤ p.memTop)

/-- R42, R44 (decisions D6, D10): an 8-byte read faults outside the window (cause 3), then on a head or filler cell if
`INSN_CELL_READ` = fault (cause 5); otherwise it gives the little-endian word of its cells, a head or filler reading as
0x00. -/
def Obligations.DataReadsFaultOrGatherBytes : Prop :=
  ∀ (s : State) (a : Word),
    (inWindow8 s.params a = false → memRead s a = .error ⟨.readWindow, a⟩) ∧
    (inWindow8 s.params a = true → cellsReadable s a = false → memRead s a = .error ⟨.readInsnCell, a⟩) ∧
    (inWindow8 s.params a = true → cellsReadable s a = true →
      ∃ v, memRead s a = .ok v ∧ ∀ i, i < 8 →
        byteOf v i = match s.cell (a.toNat + i) with
          | .byte b => b
          | .head _ => 0
          | .filler => 0)

/-- R43: an 8-byte write outside the window is reported with cause 4 and changes no cell; inside, it makes its 8 cells
raw bytes, lowest byte first, whatever they held, and changes nothing else. That it keeps the canonical form of memory
is a clause about the model's own choice of that form (log entry 5, DESIGN CHOICE). -/
def Obligations.DataWritesFaultOrStoreBytes : Prop :=
  ∀ (s : State) (a v : Word),
    (inWindow8 s.params a = false → memWrite s a v = .error ⟨.writeWindow, a⟩) ∧
    (inWindow8 s.params a = true →
      ∃ t, memWrite s a v = .ok t ∧ storedWord s t a v ∧ t.regs = s.regs ∧ t.flags = s.flags ∧ sameStatus s t ∧
        (Memory.wf s.params s.mem = true → Memory.wf t.params t.mem = true))

/-- R42, R43, R51: a read at the address just written gives the value written. -/
def Obligations.StoreThenLoadReturnsValue : Prop :=
  ∀ (s t : State) (a v : Word), memWrite s a v = .ok t → memRead t a = .ok v

/-! ## What every step keeps -/

/-- The invariant holds of the reset state: R29, R31 and R81 give its clauses on the status registers and on `STATE`.
The state itself is the model's choice (`rip` = `MEM_BOT`, log entry 2, DESIGN CHOICE; the default window and
`HALT_ADDR`, log entry 3, PRESUMED), and so are the canonical form of memory (log entry 5, DESIGN CHOICE) and the
constraints on the parameters that R6 does not state (log entry 4, DESIGN CHOICE). -/
def Obligations.ResetMeetsInvariant : Prop := Inv State.reset

/-- Every step keeps the invariant: legal parameters, memory in canonical form and inside the window, legal status
registers (R29, R160, R161), `STATE` agreeing with `rip` (R81). The canonical form of memory is the model's choice (log
entry 5, DESIGN CHOICE), and so are the constraints on the parameters that R6 does not state (log entry 4, DESIGN
CHOICE). -/
def Obligations.StepKeepsInvariant : Prop :=
  ∀ s t : State, Inv s → step s = .next t → Inv t

/-- The invariant holds after every load (R31, R81, R181). That a load is refused for parameters outside the
constraints, of which R6 states only two, is the model's choice (log entry 4, DESIGN CHOICE), and so is the canonical
form of memory (log entry 5, DESIGN CHOICE). -/
def Obligations.LoadMeetsInvariant : Prop :=
  ∀ (p : Params) (img : Image) (s : State), load p img = .next s → Inv s

/-- R28 (which the spec derives from R27 and R43): a step leaves every cell as it was or makes it a raw data byte; it
never places a head or a filler. -/
def Obligations.NoStepPlacesAnInstruction : Prop :=
  ∀ s t : State, step s = .next t → ∀ a : Nat, t.cell a = s.cell a ∨ ∃ b, t.cell a = .byte b

/-- R23 (decision D15): only JMP, Jcc, CALLQ and RETQ overwrite `rip`: any other instruction that completes leaves it at
the address of the next instruction. -/
def Obligations.OnlyControlTransferWritesRip : Prop :=
  ∀ (i : Instr) (s t : State), isControlTransfer i = false → exec i s = .next t → t.runState = .running →
    t.reg .rip = s.reg .rip

/-- R24: MOVQ, LEAQ, SETcc, PUSHQ, POPQ, JMP, Jcc, CALLQ and RETQ leave all three flags, whether they complete or fault.
-/
def Obligations.OtherInstructionsLeaveFlags : Prop :=
  ∀ (i : Instr) (s t : State), writesFlags i = false → exec i s = .next t → t.flags = s.flags

/-- R25: the flags reach nothing but the flags, save through the condition of a Jcc or SETcc: from two flag records on
which that condition agrees, an instruction leaves the same registers, memory and status. For an instruction that
faults, that the registers left are the same is the model's choice (log entry 7, DEDUCED): R161 leaves open which prefix
of the writes is left, and the model's free value is a function of the counter of faults alone. -/
def Obligations.FlagsAreReadOnlyThroughConditions : Prop :=
  ∀ (i : Instr) (s : State) (f : Flags),
    (∀ c, conditionOf i = some c → condHolds s.params f c = condHolds s.params s.flags c) →
    ∃ t u, exec i s = .next t ∧ exec i (s.setFlags f) = .next u ∧ u.regs = t.regs ∧ u.mem = t.mem ∧ sameStatus t u

/-- R24, R91: an instruction that completes and writes the flags, other than a shift, leaves flags that do not depend on
the flags before. -/
def Obligations.NewFlagsDoNotDependOnOldOnes : Prop :=
  ∀ (i : Instr) (s t : State) (f : Flags), writesFlags i = true → isShift i = false → exec i s = .next t →
    t.runState = .running → ∃ u, exec i (s.setFlags f) = .next u ∧ u.flags = t.flags

/-! ## The loader and the host (spec/70_reset_and_hazards.md) -/

/-- R181 (decisions D31, D40): what a load leaves: every register, flag and status register, and every cell of the
window, the sentinel over the data, the data over the text, the text over the zero fill. -/
def Obligations.LoadBuildsTheInitialState : Prop :=
  ∀ (p : Params) (img : Image), p.ok = true → fitsWindow p img = true →
    ∃ s, load p img = .next s ∧ s.params = p ∧ s.flags = ⟨false, false, false⟩ ∧
      (∀ r, s.reg r = if r = .rip then img.entry else if r = .rsp then BitVec.ofNat 64 (p.memTop - 8) else 0) ∧
      s.runState = (if img.entry = p.haltAddr then .halted else .running) ∧
      s.faultKind = .none ∧ s.faultCause = 0 ∧ s.faultAddr = 0 ∧ s.faultIp = 0 ∧ s.faultOpc = 0 ∧
      ∀ a : Nat, p.memBot ≤ a → a < p.memTop →
        s.cell a =
          if p.memTop - 8 ≤ a then .byte (byteOf p.haltAddr (a - (p.memTop - 8)))
          else if img.dataPos.toNat ≤ a ∧ a < img.dataPos.toNat + img.data.length then
            .byte (img.data.getD (a - img.dataPos.toNat) 0)
          else if img.textPos.toNat ≤ a ∧ a < img.textPos.toNat + 4 * img.text.length then
            (if (a - img.textPos.toNat) % 4 = 0 then .head (img.text.getD ((a - img.textPos.toNat) / 4) 0) else .filler)
          else .byte 0

/-- R184 (decision D39): an image whose segments do not both lie in the window is refused, and no machine exists. -/
def Obligations.LoadRefusesWhatDoesNotFit : Prop :=
  ∀ (p : Params) (img : Image), p.ok = true →
    (load p img = .refused .imageDoesNotFit ↔
      ¬(p.memBot ≤ img.textPos.toNat ∧ img.textPos.toNat + 4 * img.text.length ≤ p.memTop ∧
        p.memBot ≤ img.dataPos.toNat ∧ img.dataPos.toNat + img.data.length ≤ p.memTop))

/-- R31, R181 (decision D31; the default window of log entry 3): the reset state, with the default parameters: `rsp` at
the sentinel word, every other register but `rip` zero, flags and fault registers zero, RUNNING, every cell of the
window `Byte(0)` but the sentinel's 8. (`rip` = `MEM_BOT` is the model's own choice, log entry 2.) -/
def Obligations.ResetLeavesTheSpecsValues : Prop :=
  (∀ r, r ≠ .rip → State.reset.reg r = if r = .rsp then 0x40FFF8 else 0) ∧
  State.reset.flags = ⟨false, false, false⟩ ∧ State.reset.runState = .running ∧ State.reset.faultKind = .none ∧
  State.reset.faultCause = 0 ∧ State.reset.faultAddr = 0 ∧ State.reset.faultIp = 0 ∧ State.reset.faultOpc = 0 ∧
  (∀ a : Nat, 0x400000 ≤ a → a < 0x40FFF8 → State.reset.cell a = .byte 0) ∧
  (List.range 8).map (fun i => State.reset.cell (0x40FFF8 + i)) =
    [.byte 0xAD, .byte 0xDE, .byte 0x0F, .byte 0, .byte 0, .byte 0, .byte 0, .byte 0]

/-- The reset state is what a load of the image that holds nothing leaves (log entry 2, the model's choice of image). -/
def Obligations.ResetIsALoad : Prop := load .default (emptyImage .default) = .next State.reset

/-- R200, R201 (decision D1): STEP and RUN do nothing to an engine that is not RUNNING; RUN(0) does nothing, RUN(1) is
STEP, and RUN(n + 1) of a running engine is STEP and then RUN(n); a bounded run is its parts one after the other; a
result is read exactly from a halted engine. -/
def Obligations.HostRunsAreBoundedSteps : Prop :=
  (∀ (s : State) (n : Nat), s.runState ≠ .running → hostStep s = s ∧ hostRun n s = s) ∧
  (∀ s t : State, step s = .next t → hostStep s = t) ∧
  (∀ s : State, hostRun 0 s = s ∧ hostRun 1 s = hostStep s) ∧
  (∀ (s : State) (n : Nat), s.runState = .running → hostRun (n + 1) s = hostRun n (hostStep s)) ∧
  (∀ (s : State) (m n : Nat), hostRun (m + n) s = hostRun n (hostRun m s)) ∧
  ∀ (s : State) (v : Word), readResult s = some v ↔ s.runState = .halted ∧ v = s.reg .rax

/-! ## The boot image producer (spec/70_reset_and_hazards.md R190 to R197) -/

/-- R192: a program with two elements of one label fails with a redefined-symbol fault. That this is the fault reported
even when a label is also undefined is the model's choice (log entry 13: the spec gives no order). -/
def Obligations.DuplicateLabelsFailAssembly : Prop :=
  ∀ (p : Params) (entryLabel : Label) (prog : List Element), ¬(prog.map Element.label).Nodup →
    ∃ l, assemble p entryLabel prog = .error (.redefinedSymbol l)

/-- R191, R193, R194, R195, R197 (decisions D6, D41): an assembled image has its text at `MEM_BOT` and its data right
after the last instruction, 4 cells each; each label has the address of its element in that layout; the text is the
program's instructions in order, one head word each, and the data its items' bytes in order, both with every label
replaced by its address; the entry is the entry label's address. The program's labels are distinct, and the entry label
and every label referred to are among them. -/
def Obligations.AssembledImagesAreLaidOut : Prop :=
  ∀ (p : Params) (entryLabel : Label) (prog : List Element) (img : Image),
    assemble p entryLabel prog = .ok img →
    img.textPos = BitVec.ofNat 64 p.memBot ∧ img.dataPos = BitVec.ofNat 64 (p.memBot + 4 * img.text.length) ∧
      img.text.length = (prog.flatMap codeOf).length ∧
      (prog.map Element.label).Nodup ∧ (∀ l ∈ entryLabel :: prog.flatMap labelsIn, l ∈ prog.map Element.label) ∧
      ∃ addr : Label → Word,
        (∀ (before after : List Element) (e : Element), prog = before ++ e :: after →
          addr e.label = BitVec.ofNat 64 (elementAddress p prog before e)) ∧
        img.entry = addr entryLabel ∧
        img.text = (prog.flatMap codeOf).map (fun i => (instrAt addr i).encode) ∧
        img.data = (prog.flatMap itemsOf).flatMap (itemBytes addr)

/-- R194 (decisions D6, D41): the 8 bytes of a 64-bit value give it back, for every value; a text literal's bytes are
its characters and a zero terminator; an instruction's cells are its head and three fillers. -/
def Obligations.CodecRoundTrips : Prop :=
  (∀ v : Word, (quadBytes v).length = 8 ∧ wordOfBytes (fun i => (quadBytes v).getD i 0) = v) ∧
  (∀ s : List Byte, (textBytes s).length = s.length + 1 ∧ (textBytes s).take s.length = s ∧
    (textBytes s).getLast? = some 0) ∧
  ∀ w : HeadWord, instrCells w = [.head w, .filler, .filler, .filler]

/-! ## The status registers as the host reads them (spec/10_state.md R29, spec/70_reset_and_hazards.md R200) -/

/-- R29, R200, R160 (decisions D1, D30, D31): READ_STATUS gives `STATE` as 0 exactly when RUNNING, 1 exactly when HALTED
and 2 exactly when FAULTED, never 3; `FAULT_KIND` as 0 for none, 1 address-space, 2 decode and 3 malformed-operand; and
the four other fault registers as they stand. READ_STATE gives the register file, the flags and the memory. After every
fault it reads `STATE` = 2 and a kind that is not 0, and after every step that completes, with the fault registers zero
before, it reads them zero. -/
def Obligations.StatusIsReadByItsCodes : Prop :=
  (∀ s : State,
    ((readStatus s).state = 0 ↔ s.runState = .running) ∧ ((readStatus s).state = 1 ↔ s.runState = .halted) ∧
    ((readStatus s).state = 2 ↔ s.runState = .faulted) ∧
    ((readStatus s).faultKind = 0 ↔ s.faultKind = .none) ∧ ((readStatus s).faultKind = 1 ↔ s.faultKind = .address) ∧
    ((readStatus s).faultKind = 2 ↔ s.faultKind = .decode) ∧
    ((readStatus s).faultKind = 3 ↔ s.faultKind = .malformed) ∧
    (readStatus s).faultCause = s.faultCause ∧ (readStatus s).faultAddr = s.faultAddr ∧
    (readStatus s).faultIp = s.faultIp ∧ (readStatus s).faultOpc = s.faultOpc ∧
    readState s = (s.regs, s.flags, s.mem)) ∧
  ∀ s t : State, step s = .next t →
    ((readStatus t).state = 2 → (readStatus t).faultKind ≠ 0 ∧ (readStatus t).faultIp = s.reg .rip) ∧
    ((readStatus t).state ≠ 2 → readStatus t = { readStatus s with state := (readStatus t).state })

/-! ## References of a program (spec/70_reset_and_hazards.md R193, R195) -/

/-- R193, R195: a program whose labels are distinct assembles if the entry label and every label it refers to are
defined; if one of them is not, the assembly fails with the undefined-symbol fault of such a label. -/
def Obligations.ReferencesDecideAssembly : Prop :=
  ∀ (p : Params) (entryLabel : Label) (prog : List Element), (prog.map Element.label).Nodup →
    ((∀ l ∈ entryLabel :: prog.flatMap labelsIn, l ∈ prog.map Element.label) →
      ∃ img, assemble p entryLabel prog = .ok img) ∧
    (¬(∀ l ∈ entryLabel :: prog.flatMap labelsIn, l ∈ prog.map Element.label) →
      ∃ l ∈ entryLabel :: prog.flatMap labelsIn, l ∉ prog.map Element.label ∧
        assemble p entryLabel prog = .error (.undefinedSymbol l))
end

