-- ==== Sys2Proof/Laws/Encoding.lean ====
section
/-! SUPPORT. The laws of the head word: packing and unpacking are inverse, and the numbers of registers and conditions
name them back. -/

namespace Sys2Proof

theorem HeadFields.eta (h : HeadFields) : HeadFields.mk h.opc h.cc h.nops h.reserved h.a h.b = h := rfl

/-- R61: no bit of a field is dropped or moved by packing. -/
@[simp] theorem unpack_pack (h : HeadFields) : unpack (pack h) = h := by
  obtain ⟨opc, cc, nops, reserved, ⟨ak, ar, ai⟩, ⟨bk, br, bi⟩⟩ := h
  simp (disch := omega) only [unpack, pack, HeadWord.opc, BitVec.extractLsb'_append_eq_of_le,
    BitVec.extractLsb'_append_eq_of_add_le, Nat.reduceSub, BitVec.extractLsb'_eq_self]

/-- Two neighbouring fields of a word are one field of it. -/
theorem append_fields (w : HeadWord) (hi lo n m : Nat) (h : hi = lo + n) :
    w.extractLsb' hi m ++ w.extractLsb' lo n = w.extractLsb' lo (m + n) :=
  BitVec.extractLsb'_append_extractLsb'_eq_extractLsb' h

/-- R61: the fields make up the whole word. -/
@[simp] theorem pack_unpack (w : HeadWord) : pack (unpack w) = w := by
  unfold pack unpack HeadWord.opc
  dsimp only
  rw [append_fields w 96 32 64 _ rfl,
    append_fields w 32 27 5 _ rfl,
    append_fields w 27 24 3 _ rfl,
    append_fields w 24 19 5 _ rfl,
    append_fields w 19 16 3 _ rfl,
    append_fields w 16 13 3 _ rfl,
    append_fields w 13 11 2 _ rfl,
    append_fields w 11 8 3 _ rfl,
    append_fields w 8 0 8 _ rfl]
  exact BitVec.extractLsb'_eq_self

@[simp] theorem Reg.ofIndex_index (r : Reg) : Reg.ofIndex r.index = some r := by cases r <;> rfl

@[simp] theorem Cond.ofNum_num (c : Cond) : Cond.ofNum c.num = some c := by cases c <;> rfl

/-- R62: the index that names a register is the register's own; 17 to 31 name none. -/
theorem Reg.ofIndex_eq_some : ∀ {n : BitVec 5} {r : Reg}, Reg.ofIndex n = some r ↔ n = r.index := by
  intro n r; revert n; cases r <;> decide

theorem Cond.ofNum_eq_some : ∀ {n : BitVec 3} {c : Cond}, Cond.ofNum n = some c ↔ n = c.num := by
  intro n c; revert n; cases c <;> decide

/-- R63, R68: an opcode's number and condition-code field give the opcode back. -/
@[simp] theorem opcodeOf_num (op : Opcode) : opcodeOf op.num op.ccNum = .ok op := by
  cases op with
  | setcc c => cases c <;> rfl
  | jcc c => cases c <;> rfl
  | _ => rfl

/-- R65, R69: the canonical descriptor of an operand decodes to the operand. -/
@[simp] theorem decodeOperand_encodeOperand (op : Operand) : decodeOperand (encodeOperand op) = .ok op := by
  rcases op with i | r | (i | r | ⟨i, r⟩)
  · rfl
  · simp [encodeOperand, decodeOperand]
  · rfl
  · simp [encodeOperand, decodeOperand]
  · simp [encodeOperand, decodeOperand]

/-- R63: an instruction has its opcode's number of operands. -/
theorem Instr.abs_operands_length (i : Instr) : i.abs.operands.length = i.abs.op.nops := by cases i <;> rfl

/-- R60: the abstract value of an instruction gives the instruction back. -/
@[simp] theorem AbsInstr.toInstr_abs (i : Instr) : i.abs.toInstr = some i := by cases i <;> rfl

theorem AbsInstr.abs_of_toInstr {x : AbsInstr} {i : Instr} (h : x.toInstr = some i) : i.abs = x := by
  unfold AbsInstr.toInstr at h
  split at h <;> cases h <;> rfl

/-- R63, R64: the fields an opcode is decoded from are its own number and condition-code field. -/
theorem opcodeOf_ok {opc : BitVec 8} {cc : BitVec 3} {op : Opcode} (h : opcodeOf opc cc = .ok op) :
    op.num = opc ∧ op.ccNum = cc := by
  have plain : ∀ {o : Opcode}, o.ccNum = 0 → plainOpcode o cc = .ok op → op = o ∧ op.ccNum = cc := by
    intro o ho hp
    unfold plainOpcode at hp
    split at hp
    · next hc => cases hp; exact ⟨rfl, by rw [ho, hc]⟩
    · cases hp
  have cond : ∀ {f : Cond → Opcode}, (∀ c, (f c).ccNum = c.num) → condOpcode f cc = .ok op →
      (∃ c, op = f c) ∧ op.ccNum = cc := by
    intro f hf hp
    unfold condOpcode at hp
    split at hp
    · next c hc => cases hp; exact ⟨⟨c, rfl⟩, by rw [hf, ← Cond.ofNum_eq_some.mp hc]⟩
    · cases hp
  unfold opcodeOf at h
  split at h
  case h_17 hn =>
    obtain ⟨⟨c, rfl⟩, hcc⟩ := cond (fun _ => rfl) h
    exact ⟨(BitVec.eq_of_toNat_eq hn).symm, hcc⟩
  case h_23 hn =>
    obtain ⟨⟨c, rfl⟩, hcc⟩ := cond (fun _ => rfl) h
    exact ⟨(BitVec.eq_of_toNat_eq hn).symm, hcc⟩
  case h_24 => cases h
  all_goals
    next hn =>
    obtain ⟨rfl, hcc⟩ := plain rfl h
    exact ⟨(BitVec.eq_of_toNat_eq hn).symm, hcc⟩

/-- R68: everything a successful decoding says about the word's fields. -/
theorem decodeFields_ok {h : HeadFields} {i : Instr} (hd : decodeFields h = .ok i) :
    h.reserved = 0 ∧ i.abs.op.num = h.opc ∧ i.abs.op.ccNum = h.cc ∧ h.nops.toNat = i.abs.op.nops ∧
      decodeOperands h i.abs.op.nops = .ok i.abs.operands := by
  unfold decodeFields at hd
  split at hd
  · cases hd
  next hr =>
  split at hd
  · cases hd
  next op hop =>
  split at hd
  · cases hd
  next hn =>
  split at hd
  · cases hd
  next ops hops =>
  split at hd
  · next j hj =>
    cases hd
    rw [AbsInstr.abs_of_toInstr hj]
    exact ⟨by simpa using hr, (opcodeOf_ok hop).1, (opcodeOf_ok hop).2, by simpa using hn, hops⟩
  · cases hd

/-- R161: the opcode number a fault of an instruction records is bits 7 to 0 of its head word. -/
theorem decode_opc {w : HeadWord} {i : Instr} (h : decode w = .ok i) : i.abs.op.num = HeadWord.opc w :=
  (decodeFields_ok h).2.1

end Sys2Proof
end

