-- ==== Sys2Proof/Laws/State.lean ====
section
/-! SUPPORT. One lemma for each field of State under each update of State, and the laws of the register file, so that no
proof unfolds a record update. -/

namespace Sys2Proof.Machine

/-! ## The register file -/

@[simp] theorem RegFile.get_set (f : RegFile) (r q : Reg) (v : Word) :
    (f.set r v).get q = if q = r then v else f.get q := by
  cases r <;> cases q <;> rfl

/-- Two register files that read alike are equal. -/
theorem RegFile.ext_get {f g : RegFile} (h : ∀ r, f.get r = g.get r) : f = g := by
  cases f; cases g
  simp only [RegFile.mk.injEq]
  exact ⟨h .rax, h .rbx, h .rcx, h .rdx, h .rsi, h .rdi, h .rbp, h .rsp, h .r08, h .r09, h .r10, h .r11, h .r12, h .r13,
    h .r14, h .r15, h .rip⟩

@[simp] theorem RegFile.set_set (f : RegFile) (r : Reg) (v w : Word) : (f.set r v).set r w = f.set r w := by
  cases r <;> rfl

@[simp] theorem RegFile.set_get (f : RegFile) (r : Reg) : f.set r (f.get r) = f := by
  cases r <;> rfl

/-! ## Fields under the updates -/

theorem State.reg_def (s : State) (r : Reg) : s.reg r = s.regs.get r := rfl

@[simp] theorem State.setReg_reg (s : State) (r q : Reg) (v : Word) :
    (s.setReg r v).reg q = if q = r then v else s.reg q := RegFile.get_set _ _ _ _

@[simp] theorem State.setReg_setReg (s : State) (r : Reg) (v w : Word) : (s.setReg r v).setReg r w = s.setReg r w := by
  simp [State.setReg]

@[simp] theorem State.setReg_self (s : State) (r : Reg) : s.setReg r (s.reg r) = s := by
  simp [State.setReg, State.reg]

@[simp] theorem State.setReg_cell (s : State) (r : Reg) (v : Word) (a : Nat) : (s.setReg r v).cell a = s.cell a := rfl
@[simp] theorem State.setFlags_cell (s : State) (f : Flags) (a : Nat) : (s.setFlags f).cell a = s.cell a := rfl
@[simp] theorem State.setFlags_reg (s : State) (f : Flags) (r : Reg) : (s.setFlags f).reg r = s.reg r := rfl
@[simp] theorem State.setCell_reg (s : State) (a : Nat) (c : SymByte) (r : Reg) : (s.setCell a c).reg r = s.reg r := rfl

@[simp] theorem State.setReg_params (s : State) (r : Reg) (v : Word) : (s.setReg r v).params = s.params := rfl
@[simp] theorem State.setReg_regs (s : State) (r : Reg) (v : Word) : (s.setReg r v).regs = s.regs.set r v := rfl
@[simp] theorem State.setReg_flags (s : State) (r : Reg) (v : Word) : (s.setReg r v).flags = s.flags := rfl
@[simp] theorem State.setReg_mem (s : State) (r : Reg) (v : Word) : (s.setReg r v).mem = s.mem := rfl
@[simp] theorem State.setReg_runState (s : State) (r : Reg) (v : Word) : (s.setReg r v).runState = s.runState := rfl
@[simp] theorem State.setReg_faultKind (s : State) (r : Reg) (v : Word) : (s.setReg r v).faultKind = s.faultKind := rfl
@[simp] theorem State.setReg_faultCause (s : State) (r : Reg) (v : Word) : (s.setReg r v).faultCause = s.faultCause := rfl
@[simp] theorem State.setReg_faultAddr (s : State) (r : Reg) (v : Word) : (s.setReg r v).faultAddr = s.faultAddr := rfl
@[simp] theorem State.setReg_faultIp (s : State) (r : Reg) (v : Word) : (s.setReg r v).faultIp = s.faultIp := rfl
@[simp] theorem State.setReg_faultOpc (s : State) (r : Reg) (v : Word) : (s.setReg r v).faultOpc = s.faultOpc := rfl
@[simp] theorem State.setReg_freeDraws (s : State) (r : Reg) (v : Word) : (s.setReg r v).freeDraws = s.freeDraws := rfl

@[simp] theorem State.setFlags_params (s : State) (f : Flags) : (s.setFlags f).params = s.params := rfl
@[simp] theorem State.setFlags_regs (s : State) (f : Flags) : (s.setFlags f).regs = s.regs := rfl
@[simp] theorem State.setFlags_flags (s : State) (f : Flags) : (s.setFlags f).flags = f := rfl
@[simp] theorem State.setFlags_mem (s : State) (f : Flags) : (s.setFlags f).mem = s.mem := rfl
@[simp] theorem State.setFlags_runState (s : State) (f : Flags) : (s.setFlags f).runState = s.runState := rfl
@[simp] theorem State.setFlags_faultKind (s : State) (f : Flags) : (s.setFlags f).faultKind = s.faultKind := rfl
@[simp] theorem State.setFlags_faultCause (s : State) (f : Flags) : (s.setFlags f).faultCause = s.faultCause := rfl
@[simp] theorem State.setFlags_faultAddr (s : State) (f : Flags) : (s.setFlags f).faultAddr = s.faultAddr := rfl
@[simp] theorem State.setFlags_faultIp (s : State) (f : Flags) : (s.setFlags f).faultIp = s.faultIp := rfl
@[simp] theorem State.setFlags_faultOpc (s : State) (f : Flags) : (s.setFlags f).faultOpc = s.faultOpc := rfl
@[simp] theorem State.setFlags_freeDraws (s : State) (f : Flags) : (s.setFlags f).freeDraws = s.freeDraws := rfl

@[simp] theorem State.setCell_params (s : State) (a : Nat) (c : SymByte) : (s.setCell a c).params = s.params := rfl
@[simp] theorem State.setCell_regs (s : State) (a : Nat) (c : SymByte) : (s.setCell a c).regs = s.regs := rfl
@[simp] theorem State.setCell_flags (s : State) (a : Nat) (c : SymByte) : (s.setCell a c).flags = s.flags := rfl
@[simp] theorem State.setCell_mem (s : State) (a : Nat) (c : SymByte) : (s.setCell a c).mem = Memory.set s.params s.mem a c := rfl
@[simp] theorem State.setCell_runState (s : State) (a : Nat) (c : SymByte) : (s.setCell a c).runState = s.runState := rfl
@[simp] theorem State.setCell_faultKind (s : State) (a : Nat) (c : SymByte) : (s.setCell a c).faultKind = s.faultKind := rfl
@[simp] theorem State.setCell_faultCause (s : State) (a : Nat) (c : SymByte) : (s.setCell a c).faultCause = s.faultCause := rfl
@[simp] theorem State.setCell_faultAddr (s : State) (a : Nat) (c : SymByte) : (s.setCell a c).faultAddr = s.faultAddr := rfl
@[simp] theorem State.setCell_faultIp (s : State) (a : Nat) (c : SymByte) : (s.setCell a c).faultIp = s.faultIp := rfl
@[simp] theorem State.setCell_faultOpc (s : State) (a : Nat) (c : SymByte) : (s.setCell a c).faultOpc = s.faultOpc := rfl
@[simp] theorem State.setCell_freeDraws (s : State) (a : Nat) (c : SymByte) : (s.setCell a c).freeDraws = s.freeDraws := rfl

/-! ## Taking a fault (R161): the status registers, whatever the free value -/

@[simp] theorem raise_params (e : Raised) (pc0 : Word) (opc : Byte) (start : State) (landed : List State) :
    (raise e pc0 opc start landed).params = (faultBase start landed).params := rfl
@[simp] theorem raise_regs (e : Raised) (pc0 : Word) (opc : Byte) (start : State) (landed : List State) :
    (raise e pc0 opc start landed).regs = (faultBase start landed).regs := rfl
@[simp] theorem raise_flags (e : Raised) (pc0 : Word) (opc : Byte) (start : State) (landed : List State) :
    (raise e pc0 opc start landed).flags = (faultBase start landed).flags := rfl
@[simp] theorem raise_mem (e : Raised) (pc0 : Word) (opc : Byte) (start : State) (landed : List State) :
    (raise e pc0 opc start landed).mem = (faultBase start landed).mem := rfl
@[simp] theorem raise_runState (e : Raised) (pc0 : Word) (opc : Byte) (start : State) (landed : List State) :
    (raise e pc0 opc start landed).runState = .faulted := rfl
@[simp] theorem raise_faultKind (e : Raised) (pc0 : Word) (opc : Byte) (start : State) (landed : List State) :
    (raise e pc0 opc start landed).faultKind = e.cause.kind := rfl
@[simp] theorem raise_faultCause (e : Raised) (pc0 : Word) (opc : Byte) (start : State) (landed : List State) :
    (raise e pc0 opc start landed).faultCause = e.cause.code := rfl
@[simp] theorem raise_faultAddr (e : Raised) (pc0 : Word) (opc : Byte) (start : State) (landed : List State) :
    (raise e pc0 opc start landed).faultAddr = e.addr := rfl
@[simp] theorem raise_faultIp (e : Raised) (pc0 : Word) (opc : Byte) (start : State) (landed : List State) :
    (raise e pc0 opc start landed).faultIp = pc0 := rfl
@[simp] theorem raise_faultOpc (e : Raised) (pc0 : Word) (opc : Byte) (start : State) (landed : List State) :
    (raise e pc0 opc start landed).faultOpc = opc := rfl
@[simp] theorem raise_freeDraws (e : Raised) (pc0 : Word) (opc : Byte) (start : State) (landed : List State) :
    (raise e pc0 opc start landed).freeDraws = start.freeDraws + 1 := rfl

/-- R161: what a fault leaves of the registers, flags and memory is the state at the start of the step or one of the states
it went through, whatever the free value is. -/
theorem faultBase_mem (start : State) (landed : List State) : faultBase start landed ∈ start :: landed := by
  have h : Config.freePrefix start.freeDraws % (landed.length + 1) < (start :: landed).length :=
    Nat.mod_lt _ (Nat.succ_pos _)
  rw [faultBase, List.getD_eq_getElem?_getD, List.getElem?_eq_getElem h, Option.getD_some]
  exact List.getElem_mem h

/-! ## The `rip` advance and the halt test -/

theorem State.advance_reg (s : State) (q : Reg) :
    s.advance.reg q = if q = .rip then s.reg .rip + BitVec.ofNat 64 insSize else s.reg q := by
  simp [State.advance]

@[simp] theorem State.advance_pc0 (s : State) : s.advance.pc0 = s.reg .rip := by
  simp [State.advance, State.pc0]

/-- The start of the step of an instruction that was reached by an advance is the state before the advance. -/
@[simp] theorem State.advance_stepStart (s : State) : s.advance.stepStart = s := by
  rw [State.stepStart, State.advance_pc0, State.advance, State.setReg_setReg, State.setReg_self]

@[simp] theorem State.advance_params (s : State) : s.advance.params = s.params := rfl
@[simp] theorem State.stepStart_params (s : State) : s.stepStart.params = s.params := rfl
@[simp] theorem State.advance_flags (s : State) : s.advance.flags = s.flags := rfl
@[simp] theorem State.stepStart_flags (s : State) : s.stepStart.flags = s.flags := rfl
@[simp] theorem State.advance_mem (s : State) : s.advance.mem = s.mem := rfl
@[simp] theorem State.stepStart_mem (s : State) : s.stepStart.mem = s.mem := rfl
@[simp] theorem State.advance_runState (s : State) : s.advance.runState = s.runState := rfl
@[simp] theorem State.stepStart_runState (s : State) : s.stepStart.runState = s.runState := rfl
@[simp] theorem State.advance_faultKind (s : State) : s.advance.faultKind = s.faultKind := rfl
@[simp] theorem State.stepStart_faultKind (s : State) : s.stepStart.faultKind = s.faultKind := rfl
@[simp] theorem State.advance_faultCause (s : State) : s.advance.faultCause = s.faultCause := rfl
@[simp] theorem State.stepStart_faultCause (s : State) : s.stepStart.faultCause = s.faultCause := rfl
@[simp] theorem State.advance_faultAddr (s : State) : s.advance.faultAddr = s.faultAddr := rfl
@[simp] theorem State.stepStart_faultAddr (s : State) : s.stepStart.faultAddr = s.faultAddr := rfl
@[simp] theorem State.advance_faultIp (s : State) : s.advance.faultIp = s.faultIp := rfl
@[simp] theorem State.stepStart_faultIp (s : State) : s.stepStart.faultIp = s.faultIp := rfl
@[simp] theorem State.advance_faultOpc (s : State) : s.advance.faultOpc = s.faultOpc := rfl
@[simp] theorem State.stepStart_faultOpc (s : State) : s.stepStart.faultOpc = s.faultOpc := rfl
@[simp] theorem State.advance_freeDraws (s : State) : s.advance.freeDraws = s.freeDraws := rfl
@[simp] theorem State.stepStart_freeDraws (s : State) : s.stepStart.freeDraws = s.freeDraws := rfl
@[simp] theorem State.advance_cell (s : State) (a : Nat) : s.advance.cell a = s.cell a := rfl
@[simp] theorem State.stepStart_cell (s : State) (a : Nat) : s.stepStart.cell a = s.cell a := rfl

/-- R81: everything the halt test can do. -/
theorem haltTest_cases (s : State) :
    (s.runState = .running ∧ s.reg .rip = s.params.haltAddr ∧ haltTest s = { s with runState := .halted }) ∨
      (¬(s.runState = .running ∧ s.reg .rip = s.params.haltAddr) ∧ haltTest s = s) := by
  unfold haltTest
  cases h : s.runState <;> simp
  by_cases hr : s.reg .rip = s.params.haltAddr <;> simp [hr]

@[simp] theorem haltTest_params (s : State) : (haltTest s).params = s.params := by
  rcases haltTest_cases s with ⟨_, _, h⟩ | ⟨_, h⟩ <;> rw [h]
@[simp] theorem haltTest_regs (s : State) : (haltTest s).regs = s.regs := by
  rcases haltTest_cases s with ⟨_, _, h⟩ | ⟨_, h⟩ <;> rw [h]
@[simp] theorem haltTest_flags (s : State) : (haltTest s).flags = s.flags := by
  rcases haltTest_cases s with ⟨_, _, h⟩ | ⟨_, h⟩ <;> rw [h]
@[simp] theorem haltTest_mem (s : State) : (haltTest s).mem = s.mem := by
  rcases haltTest_cases s with ⟨_, _, h⟩ | ⟨_, h⟩ <;> rw [h]
@[simp] theorem haltTest_faultKind (s : State) : (haltTest s).faultKind = s.faultKind := by
  rcases haltTest_cases s with ⟨_, _, h⟩ | ⟨_, h⟩ <;> rw [h]
@[simp] theorem haltTest_faultCause (s : State) : (haltTest s).faultCause = s.faultCause := by
  rcases haltTest_cases s with ⟨_, _, h⟩ | ⟨_, h⟩ <;> rw [h]
@[simp] theorem haltTest_faultAddr (s : State) : (haltTest s).faultAddr = s.faultAddr := by
  rcases haltTest_cases s with ⟨_, _, h⟩ | ⟨_, h⟩ <;> rw [h]
@[simp] theorem haltTest_faultIp (s : State) : (haltTest s).faultIp = s.faultIp := by
  rcases haltTest_cases s with ⟨_, _, h⟩ | ⟨_, h⟩ <;> rw [h]
@[simp] theorem haltTest_faultOpc (s : State) : (haltTest s).faultOpc = s.faultOpc := by
  rcases haltTest_cases s with ⟨_, _, h⟩ | ⟨_, h⟩ <;> rw [h]
@[simp] theorem haltTest_freeDraws (s : State) : (haltTest s).freeDraws = s.freeDraws := by
  rcases haltTest_cases s with ⟨_, _, h⟩ | ⟨_, h⟩ <;> rw [h]
@[simp] theorem haltTest_reg (s : State) (r : Reg) : (haltTest s).reg r = s.reg r := by simp [State.reg]
@[simp] theorem haltTest_cell (s : State) (a : Nat) : (haltTest s).cell a = s.cell a := by simp [State.cell]

/-- R81: after the test of a running machine, `STATE` says whether `rip` is at the sentinel. -/
theorem haltTest_runState_of_running {s : State} (h : s.runState = .running) :
    (haltTest s).runState = if s.reg .rip = s.params.haltAddr then .halted else .running := by
  unfold haltTest
  rw [h]
  by_cases hr : s.reg .rip = s.params.haltAddr <;> simp [hr, h]

theorem haltTest_of_not_running {s : State} (h : s.runState ≠ .running) : haltTest s = s := by
  rcases haltTest_cases s with ⟨h', _, _⟩ | ⟨_, h'⟩
  · exact absurd h' h
  · exact h'

end Sys2Proof.Machine
end

