-- ==== Sys2Proof/Laws/Memory.lean ====
section
/-! SUPPORT. The laws of the memory: a read after a write, the frame of a write, the canonical form, the 8-byte accesses. -/

namespace Sys2Proof.Machine

/-! ## One cell -/

theorem Memory.find_insert (m : Memory) (a b : Nat) (c : SymByte) :
    Memory.find (Memory.insert m a c) b = if b = a then some c else Memory.find m b := by
  induction m with
  | nil => by_cases h : b = a <;> simp [Memory.insert, Memory.find, h]
  | cons e rest ih =>
    obtain ⟨k, d⟩ := e
    rw [Memory.insert]
    split
    · simp only [Memory.find]
    · split
      · next h1 h2 => subst h2; by_cases h : b = a <;> simp [Memory.find, h]
      · next h1 h2 =>
        simp only [Memory.find, ih]
        by_cases h : b = k
        · subst h; simp [Ne.symm h2]
        · simp [h]

theorem Memory.find_erase (m : Memory) (a b : Nat) :
    Memory.find (Memory.erase m a) b = if b = a then none else Memory.find m b := by
  induction m with
  | nil => simp [Memory.erase, Memory.find]
  | cons e rest ih =>
    obtain ⟨k, d⟩ := e
    rw [Memory.erase]
    split
    · next h =>
      subst h
      rw [ih, Memory.find]
      split <;> rfl
    · next h =>
      simp only [Memory.find, ih]
      by_cases hb : b = k
      · subst hb; simp [Ne.symm h]
      · simp [hb]

/-- A read of a cell after a write of a cell. -/
@[simp] theorem Memory.get_set (p : Params) (m : Memory) (a b : Nat) (c : SymByte) :
    Memory.get p (Memory.set p m a c) b = if b = a then c else Memory.get p m b := by
  unfold Memory.get Memory.set
  split
  · next h => rw [Memory.find_erase]; by_cases hb : b = a <;> simp [hb, h]
  · rw [Memory.find_insert]; by_cases hb : b = a <;> simp [hb]

@[simp] theorem State.setCell_cell (s : State) (a b : Nat) (c : SymByte) :
    (s.setCell a c).cell b = if b = a then c else s.cell b := Memory.get_set _ _ _ _ _

/-! ## The canonical form -/

theorem Memory.risingFrom_mono {lo lo' : Nat} (h : lo ≤ lo') {m : Memory} (hm : Memory.risingFrom lo' m = true) :
    Memory.risingFrom lo m = true := by
  cases m with
  | nil => rfl
  | cons e rest =>
    obtain ⟨a, c⟩ := e
    simp only [Memory.risingFrom, Bool.and_eq_true, decide_eq_true_eq] at hm ⊢
    exact ⟨h.trans hm.1, hm.2⟩

theorem Memory.risingFrom_insert {lo : Nat} {m : Memory} (hm : Memory.risingFrom lo m = true) {a : Nat} (ha : lo ≤ a)
    (c : SymByte) : Memory.risingFrom lo (Memory.insert m a c) = true := by
  induction m generalizing lo with
  | nil => simpa [Memory.insert, Memory.risingFrom] using ha
  | cons e rest ih =>
    obtain ⟨k, d⟩ := e
    simp only [Memory.risingFrom, Bool.and_eq_true, decide_eq_true_eq] at hm
    rw [Memory.insert]
    split
    · next h => simp [Memory.risingFrom, ha, hm.2]; omega
    · split
      · next h1 h2 => subst h2; simp [Memory.risingFrom, ha, hm.2]
      · next h1 h2 => simp [Memory.risingFrom, hm.1]; exact ih hm.2 (by omega)

theorem Memory.risingFrom_erase {lo : Nat} {m : Memory} (hm : Memory.risingFrom lo m = true) (a : Nat) :
    Memory.risingFrom lo (Memory.erase m a) = true := by
  induction m generalizing lo with
  | nil => rfl
  | cons e rest ih =>
    obtain ⟨k, d⟩ := e
    simp only [Memory.risingFrom, Bool.and_eq_true, decide_eq_true_eq] at hm
    rw [Memory.erase]
    split
    · exact Memory.risingFrom_mono (Nat.le_succ_of_le hm.1) (ih hm.2)
    · simp [Memory.risingFrom, hm.1, ih hm.2]

theorem Memory.mem_insert {m : Memory} {a : Nat} {c : SymByte} {e : Nat × SymByte} (h : e ∈ Memory.insert m a c) :
    e = (a, c) ∨ e ∈ m := by
  induction m with
  | nil => simpa [Memory.insert] using h
  | cons x rest ih =>
    obtain ⟨k, d⟩ := x
    rw [Memory.insert] at h
    split at h
    · simpa using h
    · split at h
      · rcases List.mem_cons.mp h with h | h
        · exact .inl h
        · exact .inr (List.mem_cons_of_mem _ h)
      · rcases List.mem_cons.mp h with h | h
        · exact .inr (h ▸ List.mem_cons_self)
        · exact (ih h).imp_right (List.mem_cons_of_mem _)

theorem Memory.mem_erase {m : Memory} {a : Nat} {e : Nat × SymByte} (h : e ∈ Memory.erase m a) : e ∈ m := by
  induction m with
  | nil => simp [Memory.erase] at h
  | cons x rest ih =>
    obtain ⟨k, d⟩ := x
    rw [Memory.erase] at h
    split at h
    · exact List.mem_cons_of_mem _ (ih h)
    · rcases List.mem_cons.mp h with h | h
      · exact h ▸ List.mem_cons_self
      · exact List.mem_cons_of_mem _ (ih h)

/-- A write of a cell of the window keeps the canonical form. -/
theorem Memory.wf_set {p : Params} {m : Memory} (hm : Memory.wf p m = true) {a : Nat} (ha : inWindow p a = true)
    (c : SymByte) : Memory.wf p (Memory.set p m a c) = true := by
  simp only [Memory.wf, inWindow, Bool.and_eq_true, List.all_eq_true, decide_eq_true_eq] at *
  unfold Memory.set
  split
  · exact ⟨Memory.risingFrom_erase hm.1 a, fun e he => hm.2 e (Memory.mem_erase he)⟩
  · next hc =>
    refine ⟨Memory.risingFrom_insert hm.1 (Nat.zero_le _) c, fun e he => ?_⟩
    rcases Memory.mem_insert he with h | h
    · subst h; exact ⟨ha, by simpa using hc⟩
    · exact hm.2 e h

/-- The reset memory has the canonical form. -/
theorem Memory.wf_nil (p : Params) : Memory.wf p [] = true := rfl

/-! ## A run of cells -/

theorem State.setCells_frame (s : State) (a : Nat) (cs : List SymByte) :
    (s.setCells a cs).regs = s.regs ∧ (s.setCells a cs).flags = s.flags ∧ (s.setCells a cs).params = s.params ∧
      (s.setCells a cs).runState = s.runState ∧ (s.setCells a cs).faultKind = s.faultKind ∧
      (s.setCells a cs).faultCause = s.faultCause ∧ (s.setCells a cs).faultAddr = s.faultAddr ∧
      (s.setCells a cs).faultIp = s.faultIp ∧ (s.setCells a cs).faultOpc = s.faultOpc ∧
      (s.setCells a cs).freeDraws = s.freeDraws := by
  induction cs generalizing s a with
  | nil => simp [State.setCells]
  | cons c rest ih => simpa [State.setCells] using ih (s.setCell a c) (a + 1)

@[simp] theorem State.setCells_regs (s : State) (a : Nat) (cs : List SymByte) : (s.setCells a cs).regs = s.regs :=
  (s.setCells_frame a cs).1
@[simp] theorem State.setCells_flags (s : State) (a : Nat) (cs : List SymByte) : (s.setCells a cs).flags = s.flags :=
  (s.setCells_frame a cs).2.1
@[simp] theorem State.setCells_params (s : State) (a : Nat) (cs : List SymByte) : (s.setCells a cs).params = s.params :=
  (s.setCells_frame a cs).2.2.1
@[simp] theorem State.setCells_runState (s : State) (a : Nat) (cs : List SymByte) :
    (s.setCells a cs).runState = s.runState := (s.setCells_frame a cs).2.2.2.1
@[simp] theorem State.setCells_faultKind (s : State) (a : Nat) (cs : List SymByte) :
    (s.setCells a cs).faultKind = s.faultKind := (s.setCells_frame a cs).2.2.2.2.1
@[simp] theorem State.setCells_faultCause (s : State) (a : Nat) (cs : List SymByte) :
    (s.setCells a cs).faultCause = s.faultCause := (s.setCells_frame a cs).2.2.2.2.2.1
@[simp] theorem State.setCells_faultAddr (s : State) (a : Nat) (cs : List SymByte) :
    (s.setCells a cs).faultAddr = s.faultAddr := (s.setCells_frame a cs).2.2.2.2.2.2.1
@[simp] theorem State.setCells_faultIp (s : State) (a : Nat) (cs : List SymByte) :
    (s.setCells a cs).faultIp = s.faultIp := (s.setCells_frame a cs).2.2.2.2.2.2.2.1
@[simp] theorem State.setCells_faultOpc (s : State) (a : Nat) (cs : List SymByte) :
    (s.setCells a cs).faultOpc = s.faultOpc := (s.setCells_frame a cs).2.2.2.2.2.2.2.2.1
@[simp] theorem State.setCells_freeDraws (s : State) (a : Nat) (cs : List SymByte) :
    (s.setCells a cs).freeDraws = s.freeDraws := (s.setCells_frame a cs).2.2.2.2.2.2.2.2.2
@[simp] theorem State.setCells_reg (s : State) (a : Nat) (cs : List SymByte) (r : Reg) :
    (s.setCells a cs).reg r = s.reg r := by simp [State.reg]

/-- What every cell holds after a run of cells is written. -/
theorem State.setCells_cell (s : State) (a b : Nat) (cs : List SymByte) :
    (s.setCells a cs).cell b = if a ≤ b then (cs[b - a]?).getD (s.cell b) else s.cell b := by
  induction cs generalizing s a with
  | nil => simp [State.setCells]
  | cons c rest ih =>
    rw [State.setCells, ih]
    by_cases h : a + 1 ≤ b
    · have h1 : a ≤ b := by omega
      have h2 : b - a = (b - (a + 1)) + 1 := by omega
      have h3 : b ≠ a := by omega
      simp [h, h1, h2, h3]
    · by_cases h1 : b = a
      · subst h1; simp
      · have h2 : ¬ a ≤ b := by omega
        simp [h, h1, h2]

/-- A run of cells written inside the window keeps the canonical form. -/
theorem State.setCells_wf {s : State} (hs : Memory.wf s.params s.mem = true) {a : Nat} {cs : List SymByte}
    (h0 : s.params.memBot ≤ a) (h1 : a + cs.length ≤ s.params.memTop) :
    Memory.wf s.params (s.setCells a cs).mem = true := by
  induction cs generalizing s a with
  | nil => simpa [State.setCells] using hs
  | cons c rest ih =>
    rw [State.setCells]
    refine ih (s := s.setCell a c) ?_ ?_ ?_
    · exact Memory.wf_set hs (by simp [inWindow, h0]; simp at h1; omega) c
    · exact Nat.le_succ_of_le h0
    · simp at h1 ⊢; omega

/-! ## Bytes and words (R44) -/

@[simp] theorem quadBytes_length (v : Word) : (quadBytes v).length = 8 := by simp [quadBytes]

theorem quadBytes_getElem? (v : Word) {i : Nat} (h : i < 8) : (quadBytes v)[i]? = some (byteOf v i) := by
  simp [quadBytes, h]

/-- R42: byte `i` of the word of 8 bytes. -/
theorem byteOf_wordOfBytes (f : Nat → Byte) {i : Nat} (h : i < 8) : byteOf (wordOfBytes f) i = f i := by
  have : i = 0 ∨ i = 1 ∨ i = 2 ∨ i = 3 ∨ i = 4 ∨ i = 5 ∨ i = 6 ∨ i = 7 := by omega
  rcases this with rfl | rfl | rfl | rfl | rfl | rfl | rfl | rfl <;>
  simp (disch := omega) only [byteOf, wordOfBytes, BitVec.extractLsb'_append_eq_of_le,
    BitVec.extractLsb'_append_eq_of_add_le, Nat.reduceMul, Nat.reduceSub, BitVec.extractLsb'_eq_self]

/-- R44: a word is determined by its 8 bytes. -/
theorem word_ext {v w : Word} (h : ∀ i, i < 8 → byteOf v i = byteOf w i) : v = w := by
  apply BitVec.eq_of_getLsbD_eq
  intro j hj
  have h1 := congrArg (fun b : Byte => b.getLsbD (j % 8)) (h (j / 8) (by omega))
  have h2 : j % 8 < 8 := by omega
  have h3 : 8 * (j / 8) + j % 8 = j := by omega
  simpa [byteOf, h2, h3] using h1

/-- R194: the 8 bytes of a word give the word back. -/
theorem wordOfBytes_byteOf (v : Word) : wordOfBytes (byteOf v) = v :=
  word_ext fun _ h => byteOf_wordOfBytes _ h

/-! ## The 8-byte accesses (R42, R43) -/

/-- Everything `memRead` can answer. -/
theorem memRead_cases (s : State) (a : Word) :
    (validAccess s.params a 8 = true ∧ s.dataCells a.toNat 8 = true ∧ memRead s a = .ok (s.wordAt a.toNat)) ∨
      (validAccess s.params a 8 = true ∧ s.dataCells a.toNat 8 = false ∧ memRead s a = .error ⟨.readInsnCell, a⟩) ∨
      (validAccess s.params a 8 = false ∧ memRead s a = .error ⟨.readWindow, a⟩) := by
  unfold memRead
  cases validAccess s.params a 8 <;> cases s.dataCells a.toNat 8 <;> simp

/-- Everything `memWrite` can answer. -/
theorem memWrite_cases (s : State) (a v : Word) :
    (validAccess s.params a 8 = true ∧ memWrite s a v = .ok (s.setCells a.toNat ((quadBytes v).map .byte))) ∨
      (validAccess s.params a 8 = false ∧ memWrite s a v = .error ⟨.writeWindow, a⟩) := by
  unfold memWrite
  cases validAccess s.params a 8 <;> simp

/-- What every cell holds after the 8 cells of a word are written. -/
theorem setCells_quad_cell (s : State) (a b : Nat) (v : Word) :
    (s.setCells a ((quadBytes v).map .byte)).cell b = if a ≤ b ∧ b < a + 8 then .byte (byteOf v (b - a)) else s.cell b := by
  rw [State.setCells_cell]
  by_cases h : a ≤ b
  · by_cases h2 : b < a + 8
    · have h3 : b - a < 8 := by omega
      simp [h, h2, quadBytes_getElem? v h3]
    · have h3 : ((quadBytes v).map SymByte.byte)[b - a]? = none := by
        rw [List.getElem?_eq_none]; simp; omega
      rw [if_pos h, h3, if_neg (by omega), Option.getD_none]
  · rw [if_neg h, if_neg (by omega)]

/-- A store inside the window keeps the canonical form. -/
theorem memWrite_wf {s t : State} {a v : Word} (h : memWrite s a v = .ok t) (hs : Memory.wf s.params s.mem = true) :
    Memory.wf t.params t.mem = true := by
  rcases memWrite_cases s a v with ⟨hv, ht⟩ | ⟨_, ht⟩ <;> rw [ht] at h
  · cases h
    simp only [validAccess, Bool.and_eq_true, decide_eq_true_eq] at hv
    rw [State.setCells_params]
    exact State.setCells_wf hs hv.1 (by simpa using hv.2)
  · cases h

end Sys2Proof.Machine
end

