-- ==== Sys2Proof/Laws/Exec.lean ====
section
/-! SUPPORT. What an instruction and a step can do, said once: the reads and writes of operands, the frame of a meaning,
the writes an instruction makes, and the inversion of a step. -/

namespace Sys2Proof.Machine

/-! ## Operands -/

@[simp] theorem readOp_imm (s : State) (i : Word) : readOp s (.imm i) = .ok i := rfl
@[simp] theorem readOp_reg (s : State) (r : Reg) : readOp s (.reg r) = .ok (s.reg r) := rfl
theorem readOp_ind (s : State) (m : Indirect) : readOp s (.ind m) = memRead s (s.ea m) := rfl
@[simp] theorem writeOp_reg (s : State) (r : Reg) (v : Word) : writeOp s (.reg r) v = .ok (s.setReg r v) := rfl
theorem writeOp_ind (s : State) (m : Indirect) (v : Word) : writeOp s (.ind m) v = memWrite s (s.ea m) v := rfl

theorem reading_ok {s : State} {op : Operand} {v : Word} (h : readOp s op = .ok v) (k : Word → Except Stop State) :
    reading s op k = k v := by rw [reading, h]

theorem reading_error {s : State} {op : Operand} {e : Raised} (h : readOp s op = .error e) (k : Word → Except Stop State) :
    reading s op k = .error ⟨e, []⟩ := by rw [reading, h]

theorem writing_ok {s t : State} {op : Operand} {v : Word} (h : writeOp s op v = .ok t) : writing s op v = .ok t := by
  rw [writing, h]

theorem writing_error {s : State} {op : Operand} {v : Word} {e : Raised} (h : writeOp s op v = .error e) :
    writing s op v = .error ⟨e, []⟩ := by rw [writing, h]

/-! ## The frame of a meaning -/

/-- Everything `execute` can answer: it takes the shape fault, or the body's result, or the body's fault; it never stops. -/
theorem execute_cases (i : Instr) (s : State) (body : Except Stop State) :
    (∃ c, checkShape i = some c ∧
      execute i s body = .next (raise ⟨c, s.pc0⟩ s.pc0 i.abs.op.num s.stepStart [s])) ∨
    (checkShape i = none ∧ ∃ t, body = .ok t ∧ execute i s body = .next t) ∨
    (checkShape i = none ∧ ∃ e, body = .error e ∧
      execute i s body = .next (raise e.raised s.pc0 i.abs.op.num s.stepStart (s :: e.landed))) := by
  unfold execute
  cases checkShape i with
  | some c => exact .inl ⟨c, rfl, rfl⟩
  | none => cases body with
    | ok t => exact .inr (.inl ⟨rfl, t, rfl, rfl⟩)
    | error e => exact .inr (.inr ⟨rfl, e, rfl, rfl⟩)

theorem execute_ok {i : Instr} {s t : State} {body : Except Stop State} (hi : checkShape i = none) (h : body = .ok t) :
    execute i s body = .next t := by simp only [execute, hi, h]

theorem execute_error {i : Instr} {s : State} {e : Stop} {body : Except Stop State} (hi : checkShape i = none)
    (h : body = .error e) :
    execute i s body = .next (raise e.raised s.pc0 i.abs.op.num s.stepStart (s :: e.landed)) := by simp only [execute, hi, h]

theorem execute_shape {i : Instr} {s : State} {c : Cause} (body : Except Stop State) (hi : checkShape i = some c) :
    execute i s body = .next (raise ⟨c, s.pc0⟩ s.pc0 i.abs.op.num s.stepStart [s]) := by simp only [execute, hi]

/-- The `Execute` of each instruction. -/
def bodyOf (i : Instr) (s : State) : Except Stop State :=
  match i with
  | .incq dst => modify1 s dst fun d => arithResult (cadd d 1)
  | .decq dst => modify1 s dst fun d => arithResult (csub d 1)
  | .negq dst => modify1 s dst fun d => arithResult (cneg d)
  | .addq src dst => modify2 s src dst fun d v => arithResult (cadd d v)
  | .subq src dst => modify2 s src dst fun d v => arithResult (csub d v)
  | .imulq src dst => modify2 s src dst fun d v => arithResult (cmul d v)
  | .notq dst => modify1 s dst fun d => logicResult (~~~d)
  | .andq src dst => modify2 s src dst fun d v => logicResult (d &&& v)
  | .orq src dst => modify2 s src dst fun d v => logicResult (d ||| v)
  | .xorq src dst => modify2 s src dst fun d v => logicResult (d ^^^ v)
  | .sarq amt dst => modify2 s amt dst fun d v => shiftResult .sar d v s.flags
  | .shlq amt dst => modify2 s amt dst fun d v => shiftResult .shl d v s.flags
  | .shrq amt dst => modify2 s amt dst fun d v => shiftResult .shr d v s.flags
  | .cmpq src dst => reading s src fun v => reading s dst fun d => .ok (s.setFlags (arithResult (csub d v)).2)
  | .movq src dst => reading s src fun v => writing s dst v
  | .leaq mem dst => loadAddress s mem dst
  | .sete dst => setOnCond s .eq dst
  | .setne dst => setOnCond s .neq dst
  | .setg dst => setOnCond s .gt dst
  | .setge dst => setOnCond s .ge dst
  | .setl dst => setOnCond s .lt dst
  | .setle dst => setOnCond s .le dst
  | .pushq src => reading s src fun v => pushWord s v
  | .popq dst => popInto s dst
  | .jmp tgt => reading s tgt fun t => .ok (s.jump t)
  | .callq tgt => reading s tgt fun t => callTo s t
  | .retq => readingStack s fun t => .ok (releaseWord (s.jump t))
  | .je tgt => jumpOnCond s .eq tgt
  | .jne tgt => jumpOnCond s .neq tgt
  | .jg tgt => jumpOnCond s .gt tgt
  | .jge tgt => jumpOnCond s .ge tgt
  | .jl tgt => jumpOnCond s .lt tgt
  | .jle tgt => jumpOnCond s .le tgt

/-- Every meaning is the shape check and then its `Execute` (R82). -/
theorem exec_eq (i : Instr) (s : State) : exec i s = execute i s (bodyOf i s) := by cases i <;> rfl

/-! ## The writes an instruction makes -/

/-- `t` is `s` after some writes: of registers, of flags, and of words inside the window. -/
inductive Touched (s : State) : State → Prop where
  | refl : Touched s s
  | setReg {t : State} (h : Touched s t) (r : Reg) (v : Word) : Touched s (t.setReg r v)
  | setFlags {t : State} (h : Touched s t) (f : Flags) : Touched s (t.setFlags f)
  | memWrite {t u : State} (h : Touched s t) {a v : Word} (hw : Machine.memWrite t a v = .ok u) : Touched s u

theorem Touched.writing {s t u : State} (h : Touched s t) {op : Operand} {v : Word} (hw : Machine.writing t op v = .ok u) :
    Touched s u := by
  unfold Machine.writing writeOp at hw
  cases op with
  | imm i => cases hw
  | reg r => cases hw; exact h.setReg r v
  | ind m =>
    dsimp only at hw
    split at hw
    · next hm => cases hw; exact h.memWrite hm
    · cases hw

theorem Touched.writingFlags {s t u : State} (h : Touched s t) {op : Operand} {v : Word} {f : Flags}
    (hw : Machine.writingFlags t op v f = .ok u) : Touched s u := by
  unfold Machine.writingFlags at hw
  split at hw
  · next hm => cases hw; exact (h.writing hm).setFlags f
  · cases hw

/-- A reading that ends well went on with a value. -/
theorem reading_eq_ok {s t : State} {op : Operand} {k : Word → Except Stop State} (h : reading s op k = .ok t) :
    ∃ v, readOp s op = .ok v ∧ k v = .ok t := by
  unfold reading at h
  split at h
  · next v hv => exact ⟨v, hv, h⟩
  · cases h

theorem readingStack_eq_ok {s t : State} {k : Word → Except Stop State} (h : readingStack s k = .ok t) :
    ∃ v, memRead s (s.reg .rsp) = .ok v ∧ k v = .ok t := by
  unfold readingStack at h
  split at h
  · next v hv => exact ⟨v, hv, h⟩
  · cases h

theorem Touched.pushWord {s t u : State} (h : Touched s t) {v : Word} (hw : Machine.pushWord t v = .ok u) :
    Touched s u := by
  unfold Machine.pushWord at hw
  dsimp only at hw
  split at hw
  · next hm => cases hw; exact (h.setReg _ _).memWrite hm
  · cases hw

/-- An instruction that completes has only made such writes. -/
theorem bodyOf_touched {i : Instr} {s t : State} (h : bodyOf i s = .ok t) : Touched s t := by
  have m1 : ∀ {dst f}, modify1 s dst f = .ok t → Touched s t := fun h => by
    obtain ⟨d, _, hd⟩ := reading_eq_ok h
    exact Touched.refl.writingFlags hd
  have m2 : ∀ {src dst f}, modify2 s src dst f = .ok t → Touched s t := fun h => by
    obtain ⟨v, _, hv⟩ := reading_eq_ok h
    obtain ⟨d, _, hd⟩ := reading_eq_ok hv
    exact Touched.refl.writingFlags hd
  have sc : ∀ {c dst}, setOnCond s c dst = .ok t → Touched s t := fun h => by
    obtain ⟨d, _, hd⟩ := reading_eq_ok h
    exact Touched.refl.writing hd
  have jc : ∀ {c tgt}, jumpOnCond s c tgt = .ok t → Touched s t := fun h => by
    obtain ⟨d, _, hd⟩ := reading_eq_ok h
    cases hd
    split
    · exact Touched.refl.setReg _ _
    · exact Touched.refl
  cases i <;> dsimp only [bodyOf] at h
  case cmpq src dst =>
    obtain ⟨v, _, hv⟩ := reading_eq_ok h
    obtain ⟨d, _, hd⟩ := reading_eq_ok hv
    cases hd; exact Touched.refl.setFlags _
  case movq src dst =>
    obtain ⟨v, _, hv⟩ := reading_eq_ok h
    exact Touched.refl.writing hv
  case leaq mem dst =>
    cases mem with
    | ind m => exact Touched.refl.writing h
    | _ => cases h
  case pushq src =>
    obtain ⟨v, _, hv⟩ := reading_eq_ok h
    exact Touched.refl.pushWord hv
  case popq dst =>
    obtain ⟨v, _, hv⟩ := readingStack_eq_ok h
    split at hv
    · next hw => cases hv; exact (Touched.refl.writing hw).setReg _ _
    · cases hv
  case jmp tgt =>
    obtain ⟨v, _, hv⟩ := reading_eq_ok h
    cases hv; exact Touched.refl.setReg _ _
  case callq tgt =>
    obtain ⟨v, _, hv⟩ := reading_eq_ok h
    unfold callTo at hv
    split at hv
    · next hw => cases hv; exact (Touched.refl.pushWord hw).setReg _ _
    · cases hv
  case retq =>
    obtain ⟨v, _, hv⟩ := readingStack_eq_ok h
    cases hv; exact (Touched.refl.setReg _ _).setReg _ _
  all_goals first
    | exact m1 h
    | exact m2 h
    | exact sc h
    | exact jc h

/-- R161: the only write an instruction can have made when it faults is the decrement of `rsp` of a push or a call. -/
theorem bodyOf_landed {i : Instr} {s : State} {e : Stop} (h : bodyOf i s = .error e) :
    e.landed = [] ∨ e.landed = [s.setReg .rsp (s.reg .rsp - 8)] := by
  have rd : ∀ {op k}, reading s op k = .error e → e.landed = [] ∨ ∃ v, k v = .error e := fun h => by
    unfold reading at h
    split at h
    · exact .inr ⟨_, h⟩
    · cases h; exact .inl rfl
  have rs : ∀ {k}, readingStack s k = .error e → e.landed = [] ∨ ∃ v, k v = .error e := fun h => by
    unfold readingStack at h
    split at h
    · exact .inr ⟨_, h⟩
    · cases h; exact .inl rfl
  have wr : ∀ {op v}, writing s op v = .error e → e.landed = [] := fun h => by
    unfold writing at h
    split at h
    · cases h
    · cases h; rfl
  have wf : ∀ {op v f}, writingFlags s op v f = .error e → e.landed = [] := fun h => by
    unfold writingFlags at h
    split at h
    · cases h
    · next hw => cases h; exact wr hw
  have pw : ∀ {v}, pushWord s v = .error e → e.landed = [s.setReg .rsp (s.reg .rsp - 8)] := fun h => by
    unfold pushWord at h
    dsimp only at h
    split at h
    · cases h
    · cases h; rfl
  have m1 : ∀ {dst f}, modify1 s dst f = .error e → e.landed = [] := fun h => by
    rcases rd h with h | ⟨v, h⟩
    · exact h
    · exact wf h
  have m2 : ∀ {src dst f}, modify2 s src dst f = .error e → e.landed = [] := fun h => by
    rcases rd h with h | ⟨v, h⟩
    · exact h
    · rcases rd h with h | ⟨v, h⟩
      · exact h
      · exact wf h
  have sc : ∀ {c dst}, setOnCond s c dst = .error e → e.landed = [] := fun h => by
    rcases rd h with h | ⟨v, h⟩
    · exact h
    · exact wr h
  have jc : ∀ {c tgt}, jumpOnCond s c tgt = .error e → e.landed = [] := fun h => by
    rcases rd h with h | ⟨v, h⟩
    · exact h
    · cases h
  cases i <;> dsimp only [bodyOf] at h
  case cmpq src dst =>
    rcases rd h with h | ⟨v, h⟩
    · exact .inl h
    · rcases rd h with h | ⟨v, h⟩
      · exact .inl h
      · cases h
  case movq src dst =>
    rcases rd h with h | ⟨v, h⟩
    · exact .inl h
    · exact .inl (wr h)
  case leaq mem dst =>
    cases mem with
    | ind m => exact .inl (wr h)
    | _ => cases h; exact .inl rfl
  case pushq src =>
    rcases rd h with h | ⟨v, h⟩
    · exact .inl h
    · exact .inr (pw h)
  case popq dst =>
    rcases rs h with h | ⟨v, h⟩
    · exact .inl h
    · split at h
      · cases h
      · next hw => cases h; exact .inl (wr hw)
  case jmp tgt =>
    rcases rd h with h | ⟨v, h⟩
    · exact .inl h
    · cases h
  case callq tgt =>
    rcases rd h with h | ⟨v, h⟩
    · exact .inl h
    · unfold callTo at h
      split at h
      · cases h
      · next hw => cases h; exact .inr (pw hw)
  case retq =>
    rcases rs h with h | ⟨v, h⟩
    · exact .inl h
    · cases h
  all_goals first
    | exact .inl (m1 h)
    | exact .inl (m2 h)
    | exact .inl (sc h)
    | exact .inl (jc h)

/-! ## What such writes keep -/

theorem memWrite_ok {s t : State} {a v : Word} (h : memWrite s a v = .ok t) :
    validAccess s.params a 8 = true ∧ t = s.setCells a.toNat ((quadBytes v).map .byte) := by
  rcases memWrite_cases s a v with ⟨hv, ht⟩ | ⟨_, ht⟩ <;> rw [ht] at h <;> cases h
  exact ⟨hv, rfl⟩

/-- No instruction writes the parameters, a status register or the counter of free values. -/
theorem Touched.status {s t : State} (h : Touched s t) :
    t.params = s.params ∧ t.runState = s.runState ∧ t.faultKind = s.faultKind ∧ t.faultCause = s.faultCause ∧
      t.faultAddr = s.faultAddr ∧ t.faultIp = s.faultIp ∧ t.faultOpc = s.faultOpc ∧ t.freeDraws = s.freeDraws := by
  induction h with
  | refl => simp
  | setReg _ _ _ ih => simpa using ih
  | setFlags _ _ ih => simpa using ih
  | memWrite _ hw ih => obtain ⟨_, rfl⟩ := memWrite_ok hw; simpa using ih

theorem Touched.wf {s t : State} (h : Touched s t) (hs : Memory.wf s.params s.mem = true) :
    Memory.wf t.params t.mem = true := by
  induction h with
  | refl => exact hs
  | setReg _ _ _ ih => exact ih
  | setFlags _ _ ih => exact ih
  | memWrite _ hw ih => exact memWrite_wf hw ih

/-- R28: every cell is as before or a raw data byte. -/
theorem Touched.cell {s t : State} (h : Touched s t) (a : Nat) : t.cell a = s.cell a ∨ ∃ b, t.cell a = .byte b := by
  induction h with
  | refl => exact .inl rfl
  | setReg _ _ _ ih => simpa using ih
  | setFlags _ _ ih => simpa using ih
  | memWrite _ hw ih =>
    obtain ⟨_, rfl⟩ := memWrite_ok hw
    rw [setCells_quad_cell]
    split
    · exact .inr ⟨_, rfl⟩
    · exact ih

/-! ## The inversion of a step (R82) -/

/-- Everything a step can do when it answers a next state: it takes one fault, whose registers, flags and memory are those
of the start of the step or of a state it went through; or its instruction completes and the halt test follows. -/
theorem step_cases {s t : State} (h : step s = .next t) :
    s.runState = .running ∧
    ((∃ e opc landed, t = raise e (s.reg .rip) opc s landed ∧
        ∀ u ∈ landed, u = s.advance ∨ u = s.advance.setReg .rsp (s.reg .rsp - 8)) ∨
     (∃ w i u, fetchCell s (s.reg .rip) = .ok w ∧ decode w = .ok i ∧ checkShape i = none ∧
        bodyOf i s.advance = .ok u ∧ t = haltTest u)) := by
  unfold step at h
  split at h
  · next hr =>
    refine ⟨hr, ?_⟩
    unfold runningStep at h
    split at h
    · cases h; exact .inl ⟨_, _, [], rfl, by simp⟩
    · next w hw =>
      split at h
      · cases h; exact .inl ⟨_, _, [s.advance], rfl, by simp⟩
      · next i hi =>
        have ht : ∀ u, exec i s.advance = .next u → t = haltTest u := by
          intro u hu; rw [hu] at h; cases h; rfl
        rw [exec_eq] at ht
        rcases execute_cases i s.advance (bodyOf i s.advance) with ⟨c, _, hx⟩ | ⟨hc, u, hb, hx⟩ | ⟨_, e, hb, hx⟩
        · rw [State.advance_pc0, State.advance_stepStart] at hx
          have := ht _ hx
          rw [haltTest_of_not_running (by simp)] at this
          exact .inl ⟨_, _, _, this, by simp⟩
        · exact .inr ⟨w, i, u, hw, hi, hc, hb, ht u hx⟩
        · rw [State.advance_pc0, State.advance_stepStart] at hx
          have := ht _ hx
          rw [haltTest_of_not_running (by simp)] at this
          refine .inl ⟨_, _, _, this, ?_⟩
          intro u hu
          rcases List.mem_cons.mp hu with hu | hu
          · exact .inl hu
          · rcases bodyOf_landed hb with hl | hl <;> rw [hl] at hu
            · cases hu
            · rw [List.mem_singleton.mp hu, State.advance_reg, if_neg (by decide)]
              exact .inr rfl
  · cases h
  · cases h

/-- R82: the step of a running engine whose head word decodes is `exec` of the instruction after the advance, and then the
halt test. -/
theorem step_of_decode {s : State} {w : HeadWord} {i : Instr} (hr : s.runState = .running)
    (hw : fetchCell s (s.reg .rip) = .ok w) (hi : decode w = .ok i) :
    ∃ t, exec i s.advance = .next t ∧ step s = .next (haltTest t) := by
  have hs : step s = runningStep s := by rw [step, hr]
  rcases execute_cases i s.advance (bodyOf i s.advance) with ⟨c, _, hx⟩ | ⟨_, u, _, hx⟩ | ⟨_, e, _, hx⟩ <;>
  · rw [← exec_eq] at hx
    exact ⟨_, hx, by rw [hs, runningStep, hw]; simp only [hi, hx]⟩

/-! ## The faults of an instruction -/

/-- The causes that a data access raises (R42, R43). -/
abbrev DataCause (c : Cause) : Prop := c = .readWindow ∨ c = .readInsnCell ∨ c = .writeWindow

/-- R160: the body of a well-formed instruction raises only data faults: an access outside the window, or a read of an
instruction cell. -/
theorem bodyOf_raised {i : Instr} {s : State} {e : Stop} (hi : i.wellFormed = true) (h : bodyOf i s = .error e) :
    DataCause e.raised.cause := by
  have mr : ∀ {s : State} {a e}, memRead s a = .error e → DataCause e.cause := by
    intro s a e h
    rcases memRead_cases s a with ⟨_, _, k⟩ | ⟨_, _, k⟩ | ⟨_, k⟩ <;> rw [k] at h <;> cases h <;> simp [DataCause]
  have mw : ∀ {s : State} {a v e}, memWrite s a v = .error e → DataCause e.cause := by
    intro s a v e h
    rcases memWrite_cases s a v with ⟨_, k⟩ | ⟨_, k⟩ <;> rw [k] at h
    · cases h
    · cases h; exact .inr (.inr rfl)
  have rd : ∀ {op k}, reading s op k = .error e → DataCause e.raised.cause ∨ ∃ v, k v = .error e := by
    intro op k h
    unfold reading at h
    split at h
    · exact .inr ⟨_, h⟩
    · next hh => cases h; cases op <;> simp [readOp] at hh; exact .inl (mr hh)
  have wr : ∀ {op v}, op.destination = true → writing s op v = .error e → DataCause e.raised.cause := by
    intro op v hd h
    unfold writing at h
    split at h
    · cases h
    · next hh =>
      cases h; cases op
      · cases hd
      · cases hh
      · exact mw hh
  have wf : ∀ {op v f}, op.destination = true → writingFlags s op v f = .error e → DataCause e.raised.cause := by
    intro op v f hd h
    unfold writingFlags at h
    split at h
    · cases h
    · next hh => cases h; exact wr hd hh
  have rs : ∀ {k}, readingStack s k = .error e → DataCause e.raised.cause ∨ ∃ v, k v = .error e := by
    intro k h
    unfold readingStack at h
    split at h
    · exact .inr ⟨_, h⟩
    · next hh => cases h; exact .inl (mr hh)
  have pw : ∀ {v}, pushWord s v = .error e → DataCause e.raised.cause := by
    intro v h
    unfold pushWord at h
    dsimp only at h
    split at h
    · cases h
    · next hh => cases h; exact mw hh
  have m1 : ∀ {dst f}, dst.destination = true → modify1 s dst f = .error e → DataCause e.raised.cause := by
    intro dst f hd h
    rcases rd h with h | ⟨v, h⟩
    · exact h
    · exact wf hd h
  have m2 : ∀ {src dst f}, dst.destination = true → modify2 s src dst f = .error e → DataCause e.raised.cause := by
    intro src dst f hd h
    rcases rd h with h | ⟨v, h⟩
    · exact h
    · exact m1 hd h
  cases i <;> simp only [Instr.wellFormed, Bool.and_eq_true] at hi <;> dsimp only [bodyOf] at h
  all_goals first
    | exact m1 hi h
    | exact m2 hi.2 h
    | skip
  case cmpq =>
    rcases rd h with h | ⟨v, h⟩
    · exact h
    · rcases rd h with h | ⟨v, h⟩
      · exact h
      · cases h
  case movq =>
    rcases rd h with h | ⟨v, h⟩
    · exact h
    · exact wr hi.2 h
  case leaq m d =>
    cases m with
    | ind m => exact wr hi.2 h
    | _ => cases hi.1
  case pushq =>
    rcases rd h with h | ⟨v, h⟩
    · exact h
    · exact pw h
  case popq =>
    rcases rs h with h | ⟨v, h⟩
    · exact h
    · split at h
      · cases h
      · next hh => cases h; exact wr hi hh
  case callq =>
    rcases rd h with h | ⟨v, h⟩
    · exact h
    · unfold callTo at h
      split at h
      · cases h
      · next hh => cases h; exact pw hh
  case retq =>
    rcases rs h with h | ⟨v, h⟩
    · exact h
    · cases h
  all_goals
    rcases rd h with h | ⟨v, h⟩
    · exact h
    · first
      | cases h
      | exact wr hi h

end Sys2Proof.Machine
end

