-- ==== Sys2Proof/Laws/PerInstr.lean ====
section
/-! SUPPORT. The family ShapeAgrees, one lemma for each constructor of Instr: the shape check of the machine (spec/30_encoding.md
R72, in the order of its pseudocode) passes exactly the instructions that WellFormed.lean's table allows. -/

namespace Sys2Proof.Machine

/-- R72 for one operand: the check passes exactly the operands of the table's cell. -/
theorem checkOperand_anyKind (op : Operand) : checkOperand .anyKind op = none ↔ op.anySource = true := by
  rcases op with i | r | (i | r | ⟨i, r⟩)
  all_goals first
    | exact iff_of_true rfl rfl
    | exact iff_of_false (fun h => absurd h (Option.some_ne_none _)) (fun h => absurd h Bool.false_ne_true)
    | (cases r <;> first | exact iff_of_true rfl rfl | exact iff_of_false (fun h => absurd h (Option.some_ne_none _)) (fun h => absurd h Bool.false_ne_true))
theorem checkOperand_destination (op : Operand) : checkOperand .destination op = none ↔ op.destination = true := by
  rcases op with i | r | (i | r | ⟨i, r⟩)
  all_goals first
    | exact iff_of_true rfl rfl
    | exact iff_of_false (fun h => absurd h (Option.some_ne_none _)) (fun h => absurd h Bool.false_ne_true)
    | (cases r <;> first | exact iff_of_true rfl rfl | exact iff_of_false (fun h => absurd h (Option.some_ne_none _)) (fun h => absurd h Bool.false_ne_true))
theorem checkOperand_leaqSource (op : Operand) : checkOperand .leaqSource op = none ↔ op.indirectSource = true := by
  rcases op with i | r | (i | r | ⟨i, r⟩)
  all_goals first
    | exact iff_of_true rfl rfl
    | exact iff_of_false (fun h => absurd h (Option.some_ne_none _)) (fun h => absurd h Bool.false_ne_true)
    | (cases r <;> first | exact iff_of_true rfl rfl | exact iff_of_false (fun h => absurd h (Option.some_ne_none _)) (fun h => absurd h Bool.false_ne_true))
theorem checkOperand_shiftAmount (op : Operand) : checkOperand .shiftAmount op = none ↔ op.shiftAmount = true := by
  rcases op with i | r | (i | r | ⟨i, r⟩)
  all_goals first
    | exact iff_of_true rfl rfl
    | exact iff_of_false (fun h => absurd h (Option.some_ne_none _)) (fun h => absurd h Bool.false_ne_true)
    | (cases r <;> first | exact iff_of_true rfl rfl | exact iff_of_false (fun h => absurd h (Option.some_ne_none _)) (fun h => absurd h Bool.false_ne_true))

theorem checkOperands_nil (roles : List Role) : checkOperands roles [] = none := by cases roles <;> rfl

theorem checkOperands_cons (role : Role) (roles : List Role) (op : Operand) (ops : List Operand) :
    checkOperands (role :: roles) (op :: ops) = none ↔ checkOperand role op = none ∧ checkOperands roles ops = none := by
  rw [checkOperands]
  cases checkOperand role op <;> simp

end Sys2Proof.Machine

namespace Sys2Proof.Laws.ShapeAgrees

open Sys2Proof.Machine

/-- The shape check and the table of R72 agree on the instruction. -/
def Statement (i : Instr) : Prop := checkShape i = none ↔ i.wellFormed = true

theorem incq (dst : Operand) : Statement (.incq dst) := by
  simp [Statement, checkShape, rolesOf, Instr.abs, checkOperands_cons, checkOperands_nil, Instr.wellFormed,
    checkOperand_destination]
theorem decq (dst : Operand) : Statement (.decq dst) := by
  simp [Statement, checkShape, rolesOf, Instr.abs, checkOperands_cons, checkOperands_nil, Instr.wellFormed,
    checkOperand_destination]
theorem negq (dst : Operand) : Statement (.negq dst) := by
  simp [Statement, checkShape, rolesOf, Instr.abs, checkOperands_cons, checkOperands_nil, Instr.wellFormed,
    checkOperand_destination]
theorem addq (src dst : Operand) : Statement (.addq src dst) := by
  simp [Statement, checkShape, rolesOf, Instr.abs, checkOperands_cons, checkOperands_nil, Instr.wellFormed,
    checkOperand_anyKind, checkOperand_destination]
theorem subq (src dst : Operand) : Statement (.subq src dst) := by
  simp [Statement, checkShape, rolesOf, Instr.abs, checkOperands_cons, checkOperands_nil, Instr.wellFormed,
    checkOperand_anyKind, checkOperand_destination]
theorem imulq (src dst : Operand) : Statement (.imulq src dst) := by
  simp [Statement, checkShape, rolesOf, Instr.abs, checkOperands_cons, checkOperands_nil, Instr.wellFormed,
    checkOperand_anyKind, checkOperand_destination]
theorem notq (dst : Operand) : Statement (.notq dst) := by
  simp [Statement, checkShape, rolesOf, Instr.abs, checkOperands_cons, checkOperands_nil, Instr.wellFormed,
    checkOperand_destination]
theorem andq (src dst : Operand) : Statement (.andq src dst) := by
  simp [Statement, checkShape, rolesOf, Instr.abs, checkOperands_cons, checkOperands_nil, Instr.wellFormed,
    checkOperand_anyKind, checkOperand_destination]
theorem orq (src dst : Operand) : Statement (.orq src dst) := by
  simp [Statement, checkShape, rolesOf, Instr.abs, checkOperands_cons, checkOperands_nil, Instr.wellFormed,
    checkOperand_anyKind, checkOperand_destination]
theorem xorq (src dst : Operand) : Statement (.xorq src dst) := by
  simp [Statement, checkShape, rolesOf, Instr.abs, checkOperands_cons, checkOperands_nil, Instr.wellFormed,
    checkOperand_anyKind, checkOperand_destination]
theorem sarq (amt dst : Operand) : Statement (.sarq amt dst) := by
  simp [Statement, checkShape, rolesOf, Instr.abs, checkOperands_cons, checkOperands_nil, Instr.wellFormed,
    checkOperand_shiftAmount, checkOperand_destination]
theorem shlq (amt dst : Operand) : Statement (.shlq amt dst) := by
  simp [Statement, checkShape, rolesOf, Instr.abs, checkOperands_cons, checkOperands_nil, Instr.wellFormed,
    checkOperand_shiftAmount, checkOperand_destination]
theorem shrq (amt dst : Operand) : Statement (.shrq amt dst) := by
  simp [Statement, checkShape, rolesOf, Instr.abs, checkOperands_cons, checkOperands_nil, Instr.wellFormed,
    checkOperand_shiftAmount, checkOperand_destination]
theorem cmpq (src dst : Operand) : Statement (.cmpq src dst) := by
  simp [Statement, checkShape, rolesOf, Instr.abs, checkOperands_cons, checkOperands_nil, Instr.wellFormed,
    checkOperand_anyKind]
theorem movq (src dst : Operand) : Statement (.movq src dst) := by
  simp [Statement, checkShape, rolesOf, Instr.abs, checkOperands_cons, checkOperands_nil, Instr.wellFormed,
    checkOperand_anyKind, checkOperand_destination]
theorem leaq (mem dst : Operand) : Statement (.leaq mem dst) := by
  simp [Statement, checkShape, rolesOf, Instr.abs, checkOperands_cons, checkOperands_nil, Instr.wellFormed,
    checkOperand_leaqSource, checkOperand_destination]
theorem sete (dst : Operand) : Statement (.sete dst) := by
  simp [Statement, checkShape, rolesOf, Instr.abs, checkOperands_cons, checkOperands_nil, Instr.wellFormed,
    checkOperand_destination]
theorem setne (dst : Operand) : Statement (.setne dst) := by
  simp [Statement, checkShape, rolesOf, Instr.abs, checkOperands_cons, checkOperands_nil, Instr.wellFormed,
    checkOperand_destination]
theorem setg (dst : Operand) : Statement (.setg dst) := by
  simp [Statement, checkShape, rolesOf, Instr.abs, checkOperands_cons, checkOperands_nil, Instr.wellFormed,
    checkOperand_destination]
theorem setge (dst : Operand) : Statement (.setge dst) := by
  simp [Statement, checkShape, rolesOf, Instr.abs, checkOperands_cons, checkOperands_nil, Instr.wellFormed,
    checkOperand_destination]
theorem setl (dst : Operand) : Statement (.setl dst) := by
  simp [Statement, checkShape, rolesOf, Instr.abs, checkOperands_cons, checkOperands_nil, Instr.wellFormed,
    checkOperand_destination]
theorem setle (dst : Operand) : Statement (.setle dst) := by
  simp [Statement, checkShape, rolesOf, Instr.abs, checkOperands_cons, checkOperands_nil, Instr.wellFormed,
    checkOperand_destination]
theorem pushq (src : Operand) : Statement (.pushq src) := by
  simp [Statement, checkShape, rolesOf, Instr.abs, checkOperands_cons, checkOperands_nil, Instr.wellFormed,
    checkOperand_anyKind]
theorem popq (dst : Operand) : Statement (.popq dst) := by
  simp [Statement, checkShape, rolesOf, Instr.abs, checkOperands_cons, checkOperands_nil, Instr.wellFormed,
    checkOperand_destination]
theorem jmp (tgt : Operand) : Statement (.jmp tgt) := by
  simp [Statement, checkShape, rolesOf, Instr.abs, checkOperands_cons, checkOperands_nil, Instr.wellFormed,
    checkOperand_anyKind]
theorem callq (tgt : Operand) : Statement (.callq tgt) := by
  simp [Statement, checkShape, rolesOf, Instr.abs, checkOperands_cons, checkOperands_nil, Instr.wellFormed,
    checkOperand_anyKind]
theorem retq : Statement .retq := iff_of_true rfl rfl
theorem je (tgt : Operand) : Statement (.je tgt) := by
  simp [Statement, checkShape, rolesOf, Instr.abs, checkOperands_cons, checkOperands_nil, Instr.wellFormed,
    checkOperand_anyKind]
theorem jne (tgt : Operand) : Statement (.jne tgt) := by
  simp [Statement, checkShape, rolesOf, Instr.abs, checkOperands_cons, checkOperands_nil, Instr.wellFormed,
    checkOperand_anyKind]
theorem jg (tgt : Operand) : Statement (.jg tgt) := by
  simp [Statement, checkShape, rolesOf, Instr.abs, checkOperands_cons, checkOperands_nil, Instr.wellFormed,
    checkOperand_anyKind]
theorem jge (tgt : Operand) : Statement (.jge tgt) := by
  simp [Statement, checkShape, rolesOf, Instr.abs, checkOperands_cons, checkOperands_nil, Instr.wellFormed,
    checkOperand_anyKind]
theorem jl (tgt : Operand) : Statement (.jl tgt) := by
  simp [Statement, checkShape, rolesOf, Instr.abs, checkOperands_cons, checkOperands_nil, Instr.wellFormed,
    checkOperand_anyKind]
theorem jle (tgt : Operand) : Statement (.jle tgt) := by
  simp [Statement, checkShape, rolesOf, Instr.abs, checkOperands_cons, checkOperands_nil, Instr.wellFormed,
    checkOperand_anyKind]

end Sys2Proof.Laws.ShapeAgrees

namespace Sys2Proof.Machine

/-- The shape check and the table of R72 agree. -/
theorem checkShape_none_iff (i : Instr) : checkShape i = none ↔ i.wellFormed = true := by
  cases i
  case incq => exact Laws.ShapeAgrees.incq _
  case decq => exact Laws.ShapeAgrees.decq _
  case negq => exact Laws.ShapeAgrees.negq _
  case addq => exact Laws.ShapeAgrees.addq _ _
  case subq => exact Laws.ShapeAgrees.subq _ _
  case imulq => exact Laws.ShapeAgrees.imulq _ _
  case notq => exact Laws.ShapeAgrees.notq _
  case andq => exact Laws.ShapeAgrees.andq _ _
  case orq => exact Laws.ShapeAgrees.orq _ _
  case xorq => exact Laws.ShapeAgrees.xorq _ _
  case sarq => exact Laws.ShapeAgrees.sarq _ _
  case shlq => exact Laws.ShapeAgrees.shlq _ _
  case shrq => exact Laws.ShapeAgrees.shrq _ _
  case cmpq => exact Laws.ShapeAgrees.cmpq _ _
  case movq => exact Laws.ShapeAgrees.movq _ _
  case leaq => exact Laws.ShapeAgrees.leaq _ _
  case sete => exact Laws.ShapeAgrees.sete _
  case setne => exact Laws.ShapeAgrees.setne _
  case setg => exact Laws.ShapeAgrees.setg _
  case setge => exact Laws.ShapeAgrees.setge _
  case setl => exact Laws.ShapeAgrees.setl _
  case setle => exact Laws.ShapeAgrees.setle _
  case pushq => exact Laws.ShapeAgrees.pushq _
  case popq => exact Laws.ShapeAgrees.popq _
  case jmp => exact Laws.ShapeAgrees.jmp _
  case callq => exact Laws.ShapeAgrees.callq _
  case retq => exact Laws.ShapeAgrees.retq
  case je => exact Laws.ShapeAgrees.je _
  case jne => exact Laws.ShapeAgrees.jne _
  case jg => exact Laws.ShapeAgrees.jg _
  case jge => exact Laws.ShapeAgrees.jge _
  case jl => exact Laws.ShapeAgrees.jl _
  case jle => exact Laws.ShapeAgrees.jle _

/-- R72, R160: the shape check raises only malformed-operand faults. -/
theorem checkOperands_kind {roles : List Role} {ops : List Operand} {c : Cause} (h : checkOperands roles ops = some c) :
    c.kind = .malformed := by
  have one : ∀ {role op c}, checkOperand role op = some c → c.kind = .malformed := by
    intro role op c
    cases role <;> rcases op with i | r | (i | r | ⟨i, r⟩) <;> (try cases r) <;> intro h <;>
      first
        | (cases h; done)
        | (cases h; rfl)
  induction roles generalizing ops with
  | nil => cases ops <;> cases h
  | cons r rs ih =>
    cases ops with
    | nil => cases h
    | cons o os =>
      unfold checkOperands at h
      split at h
      · next hh => cases h; exact one hh
      · exact ih h

end Sys2Proof.Machine
end

