-- ==== Sys2Proof/Laws/Access.lean ====
section
/-! SUPPORT. The terms of Safety.lean beside the machine's operations: when a read or a write of an operand succeeds and what
it then gives. -/

namespace Sys2Proof.Safety

open Sys2Proof.Machine

theorem inWindow8_eq (p : Params) (a : Word) : inWindow8 p a = validAccess p a 8 := rfl

theorem cellReadable_eq (p : Params) (c : SymByte) : cellReadable p c = (dataByte p c).isSome := by
  cases c <;> simp only [cellReadable, dataByte, Option.isSome] <;> cases p.insnCellRead <;> rfl

theorem cellsReadable_eq (s : State) (a : Word) : cellsReadable s a = s.dataCells a.toNat 8 := by
  simp only [cellsReadable, State.dataCells, cellReadable_eq]

/-- A read of a readable address gives the word there. -/
theorem memRead_ok {s : State} {a : Word} (h : readable s a = true) : memRead s a = .ok (s.wordAt a.toNat) := by
  simp only [readable, Bool.and_eq_true, inWindow8_eq, cellsReadable_eq] at h
  simp only [memRead, h.1, h.2, if_true]

/-- A read of an address that is not readable faults: outside the window first, then on a cell that is no raw byte. -/
theorem memRead_error {s : State} {a : Word} (h : readable s a = false) :
    memRead s a = .error ⟨if inWindow8 s.params a then .readInsnCell else .readWindow, a⟩ := by
  rcases memRead_cases s a with ⟨hv, hc, _⟩ | ⟨hv, _, hm⟩ | ⟨hv, hm⟩ <;> rw [← inWindow8_eq] at hv
  · rw [readable, cellsReadable_eq, hv, hc] at h; cases h
  · rw [hm, if_pos hv]
  · rw [hm, if_neg (by rw [hv]; decide)]

/-- A readable operand reads as its value. -/
theorem readOp_ok {s : State} {op : Operand} (h : operandReadable s op = true) : readOp s op = .ok (operandValue s op) := by
  cases op with
  | imm i => rfl
  | reg r => rfl
  | ind m => exact memRead_ok h

theorem readOp_error {s : State} {m : Indirect} (h : readable s (s.ea m) = false) :
    readOp s (.ind m) = .error ⟨if inWindow8 s.params (s.ea m) then .readInsnCell else .readWindow, s.ea m⟩ :=
  memRead_error h

/-- A destination that can be read can be written. -/
theorem operandWritable_of_readable {s : State} {op : Operand} (hd : op.destination = true)
    (h : operandReadable s op = true) : operandWritable s op = true := by
  cases op with
  | imm i => cases hd
  | reg r => rfl
  | ind m =>
    simp only [operandReadable, readable, Bool.and_eq_true] at h
    exact h.1

theorem sameStatus.refl (s : State) : sameStatus s s := ⟨rfl, rfl, rfl, rfl, rfl, rfl, rfl, rfl⟩

theorem sameStatus.trans {s t u : State} (h : sameStatus s t) (k : sameStatus t u) : sameStatus s u := by
  obtain ⟨h1, h2, h3, h4, h5, h6, h7, h8⟩ := h
  obtain ⟨k1, k2, k3, k4, k5, k6, k7, k8⟩ := k
  exact ⟨k1.trans h1, k2.trans h2, k3.trans h3, k4.trans h4, k5.trans h5, k6.trans h6, k7.trans h7, k8.trans h8⟩

theorem sameStatus_setReg (s : State) (r : Reg) (v : Word) : sameStatus s (s.setReg r v) := sameStatus.refl s
theorem sameStatus_setFlags (s : State) (f : Flags) : sameStatus s (s.setFlags f) := sameStatus.refl s

/-- A store inside the window writes the word's 8 cells and nothing else. -/
theorem memWrite_storedWord {s : State} {a : Word} (v : Word) (h : inWindow8 s.params a = true) :
    ∃ t, memWrite s a v = .ok t ∧ storedWord s t a v ∧ t.regs = s.regs ∧ t.flags = s.flags ∧ sameStatus s t := by
  rw [inWindow8_eq] at h
  refine ⟨_, by rw [memWrite, if_pos h], ⟨?_, ?_⟩, by simp, by simp, ?_⟩
  · intro i hi
    rw [setCells_quad_cell, if_pos (by omega), Nat.add_sub_cancel_left]
  · intro b hb
    rw [setCells_quad_cell, if_neg (by omega)]
  · simp [sameStatus]

theorem memWrite_outside {s : State} {a : Word} (v : Word) (h : inWindow8 s.params a = false) :
    memWrite s a v = .error ⟨.writeWindow, a⟩ := by
  rw [inWindow8_eq] at h
  rw [memWrite, if_neg (by simp [h])]

/-- A write of a writable destination writes it and nothing else. -/
theorem writing_wrote {s : State} {op : Operand} (v : Word) (h : operandWritable s op = true) :
    ∃ t, writing s op v = .ok t ∧ wroteOperand s t op v ∧ t.flags = s.flags ∧ sameStatus s t := by
  cases op with
  | imm i => cases h
  | reg r =>
    refine ⟨s.setReg r v, rfl, ⟨by simp, ?_, fun _ => rfl⟩, rfl, sameStatus_setReg s r v⟩
    intro q hq
    rw [State.setReg_reg, if_neg (by simpa using hq)]
  | ind m =>
    obtain ⟨t, ht, hw, hr, hf, hs⟩ := memWrite_storedWord v h
    exact ⟨t, writing_ok (by rw [writeOp_ind, ht]), ⟨fun q _ => by simp [State.reg, hr], hw⟩, hf, hs⟩

/-- Writing the flags afterwards keeps what was written. -/
theorem wroteOperand_setFlags {s t : State} {op : Operand} {v : Word} (h : wroteOperand s t op v) (f : Flags) :
    wroteOperand s (t.setFlags f) op v := by
  cases op <;> exact h

theorem writingFlags_wrote {s : State} {op : Operand} (v : Word) (f : Flags) (h : operandWritable s op = true) :
    ∃ t, writingFlags s op v f = .ok t ∧ wroteOperand s t op v ∧ t.flags = f ∧ sameStatus s t := by
  obtain ⟨t, ht, hw, _, hs⟩ := writing_wrote v h
  exact ⟨t.setFlags f, by rw [writingFlags, ht], wroteOperand_setFlags hw f, rfl, hs⟩

/-- A read-modify-write of a readable destination completes. -/
theorem modify1_wrote {s : State} {dst : Operand} (f : Word → Word × Flags) (hd : dst.destination = true)
    (h : operandReadable s dst = true) :
    ∃ t, modify1 s dst f = .ok t ∧ wroteOperand s t dst (f (operandValue s dst)).1 ∧
      t.flags = (f (operandValue s dst)).2 ∧ sameStatus s t := by
  rw [modify1, reading_ok (readOp_ok h)]
  exact writingFlags_wrote _ _ (operandWritable_of_readable hd h)

theorem modify2_wrote {s : State} {src dst : Operand} (f : Word → Word → Word × Flags) (hd : dst.destination = true)
    (hs : operandReadable s src = true) (h : operandReadable s dst = true) :
    ∃ t, modify2 s src dst f = .ok t ∧ wroteOperand s t dst (f (operandValue s dst) (operandValue s src)).1 ∧
      t.flags = (f (operandValue s dst) (operandValue s src)).2 ∧ sameStatus s t := by
  rw [modify2, reading_ok (readOp_ok hs), reading_ok (readOp_ok h)]
  exact writingFlags_wrote _ _ (operandWritable_of_readable hd h)

/-- A well-formed instruction whose `Execute` ends well answers what it ends with. -/
theorem exec_ok {i : Instr} {s t : State} (hi : i.wellFormed = true) (h : bodyOf i s = .ok t) : exec i s = .next t := by
  rw [exec_eq]; exact execute_ok ((checkShape_none_iff i).mpr hi) h

/-- A well-formed instruction whose `Execute` faults takes the fault. -/
theorem exec_error {i : Instr} {s : State} {e : Stop} (hi : i.wellFormed = true) (h : bodyOf i s = .error e) :
    execFaults i s e.raised.cause.kind e.raised.cause.code e.raised.addr := by
  refine ⟨_, by rw [exec_eq]; exact execute_error ((checkShape_none_iff i).mpr hi) h, ?_⟩
  exact ⟨rfl, rfl, rfl, rfl, rfl, rfl⟩

end Sys2Proof.Safety
end

