-- ==== Sys2Proof/Laws/Loader.lean ====
section
/-! SUPPORT. The laws of the loader, of the host's operations and of the image producer: the cells of a text segment, what a
load answers, what a stopped machine does, and what the passes over a program keep. -/

namespace Sys2Proof.Machine

/-! ## The loader (R181 to R184) -/

/-- R183: an instruction has 4 cells. -/
@[simp] theorem Image.textCells_length (img : Image) : img.textCells.length = 4 * img.text.length := by
  simp [Image.textCells, instrCells, List.length_flatMap]; omega

@[simp] theorem Image.dataCells_length (img : Image) : img.dataCells.length = img.data.length := by
  simp [Image.dataCells]

/-- R183: cell `k` of a text segment is a head if `k` is a multiple of 4, and a filler otherwise. -/
theorem flatMap_instrCells_getElem? (l : List HeadWord) (k : Nat) :
    (l.flatMap instrCells)[k]? =
      if k < 4 * l.length then some (if k % 4 = 0 then .head (l.getD (k / 4) 0) else .filler) else none := by
  induction l generalizing k with
  | nil => simp
  | cons w r ih =>
    rw [List.flatMap_cons]
    by_cases h : k < 4
    · have : k = 0 ∨ k = 1 ∨ k = 2 ∨ k = 3 := by omega
      rcases this with rfl | rfl | rfl | rfl <;> simp [instrCells] <;> omega
    · rw [List.getElem?_append_right (by simp [instrCells]; omega), ih]
      have h1 : (k - 4) % 4 = k % 4 := by omega
      have h2 : k / 4 = (k - 4) / 4 + 1 := by omega
      simp only [instrCells, List.length_cons, List.length_nil, zero_add, Nat.reduceAdd, h1, h2, List.getD_cons_succ]
      by_cases h3 : k - 4 < 4 * r.length
      · have : k < 4 * (r.length + 1) := by omega
        simp [h3, this]
      · have : ¬ k < 4 * (r.length + 1) := by omega
        simp [h3, this]

/-- Everything a load can answer. -/
theorem load_cases (p : Params) (img : Image) :
    (p.ok = true ∧ fitsWindow p img = true ∧ load p img = .next (loaded p img)) ∨
      (p.ok = true ∧ fitsWindow p img = false ∧ load p img = .refused .imageDoesNotFit) ∨
      (p.ok = false ∧ load p img = .refused .badParameters) := by
  unfold load
  cases p.ok <;> cases fitsWindow p img <;> simp

/-! ## The host's operations (R200) -/

theorem hostStep_of_not_running {s : State} (h : s.runState ≠ .running) : hostStep s = s := by
  unfold hostStep
  split
  · next h' => exact absurd h' h
  · rfl

theorem hostRun_of_not_running {s : State} (h : s.runState ≠ .running) (n : Nat) : hostRun n s = s := by
  cases n with
  | zero => rfl
  | succ n =>
    unfold hostRun
    split
    · next h' => exact absurd h' h
    · rfl

/-! ## The image producer (R191 to R194) -/

/-- R191: the symbol table has the labels of the program, in its order. -/
theorem symbolsFrom_labels (code data : Nat) (prog : List Element) :
    (symbolsFrom code data prog).map (·.1) = prog.map Element.label := by
  induction prog generalizing code data with
  | nil => rfl
  | cons e r ih =>
    unfold symbolsFrom
    split <;> simp [ih]

/-- R192: no duplicate is found exactly when the labels are distinct. -/
theorem duplicateLabel_eq_none (tab : List (Label × Nat)) : duplicateLabel tab = none ↔ (tab.map (·.1)).Nodup := by
  induction tab with
  | nil => simp [duplicateLabel]
  | cons e r ih =>
    obtain ⟨l, a⟩ := e
    unfold duplicateLabel
    split
    · next h =>
      simp only [List.any_eq_true, beq_iff_eq, Prod.exists, exists_and_right, exists_eq_right] at h
      obtain ⟨b, hb⟩ := h
      simp only [reduceCtorEq, List.map_cons, List.nodup_cons, false_iff, not_and]
      intro h2
      exact absurd (List.mem_map_of_mem hb) h2
    · next h =>
      rw [ih]
      simp at h
      simp only [List.map_cons, List.nodup_cons, iff_and_self]
      intro _ hm
      obtain ⟨⟨l', b⟩, hb, rfl⟩ := List.mem_map.mp hm
      exact h _ hb

end Sys2Proof.Machine

/-! ## The two passes in the terms of Safety.lean -/

namespace Sys2Proof.Safety

open Sys2Proof.Machine

/-- The address of a label in a symbol table; 0 for a label that is not in it. -/
def tableAddr (tab : List (Label × Nat)) (l : Label) : Word :=
  match addressOf tab l with
  | .ok a => a
  | .error _ => 0

/-- All that resolving something whose labels are `labels` can answer: its value `v` if every label is in the table, and the
undefined-symbol fault of one of its labels otherwise (R193). -/
def Resolves {β : Type} (tab : List (Label × Nat)) (labels : List Label) (r : Except AsmFault β) (v : β) : Prop :=
  ((∀ l ∈ labels, l ∈ tab.map (·.1)) ∧ r = .ok v) ∨
    ∃ l ∈ labels, l ∉ tab.map (·.1) ∧ r = .error (.undefinedSymbol l)

theorem addressOf_cases (tab : List (Label × Nat)) (l : Label) :
    (l ∈ tab.map (·.1) ∧ addressOf tab l = .ok (tableAddr tab l)) ∨
      (l ∉ tab.map (·.1) ∧ addressOf tab l = .error (.undefinedSymbol l)) := by
  induction tab with
  | nil => exact .inr ⟨by simp, rfl⟩
  | cons x r ih =>
    obtain ⟨m, a⟩ := x
    by_cases h : m = l
    · exact .inl ⟨by simp [h], by simp [tableAddr, addressOf, h]⟩
    · have : addressOf ((m, a) :: r) l = addressOf r l := by rw [addressOf, if_neg h]
      rcases ih with ⟨h1, h2⟩ | ⟨h1, h2⟩
      · exact .inl ⟨by simp [h1], by rw [tableAddr, this, h2]⟩
      · exact .inr ⟨by simp only [List.map_cons, List.mem_cons, not_or]; exact ⟨Ne.symm h, h1⟩, by rw [this, h2]⟩

theorem Resolves.map {α β : Type} {tab : List (Label × Nat)} {labels : List Label} {r : Except AsmFault α} {v : α}
    (h : Resolves tab labels r v) (f : α → β) : Resolves tab labels (r.map f) (f v) := by
  rcases h with ⟨h, rfl⟩ | ⟨l, h1, h2, rfl⟩
  · exact .inl ⟨h, rfl⟩
  · exact .inr ⟨l, h1, h2, rfl⟩

/-- A list is resolved item by item. -/
theorem resolves_mapUntilFault {α β : Type} {tab : List (Label × Nat)} {labels : α → List Label} {f : α → Except AsmFault β}
    {g : α → β} (h : ∀ a, Resolves tab (labels a) (f a) (g a)) (as : List α) :
    Resolves tab (as.flatMap labels) (mapUntilFault f as) (as.map g) := by
  induction as with
  | nil => exact .inl ⟨by simp, rfl⟩
  | cons a as ih =>
    unfold mapUntilFault
    rcases h a with ⟨h1, h2⟩ | ⟨l, h1, h2, h3⟩
    · rcases ih with ⟨i1, i2⟩ | ⟨l, i1, i2, i3⟩
      · refine .inl ⟨?_, by rw [h2, i2]; rfl⟩
        intro l hl
        rcases List.mem_append.mp (List.flatMap_cons ▸ hl) with hl | hl
        · exact h1 l hl
        · exact i1 l hl
      · exact .inr ⟨l, by rw [List.flatMap_cons]; exact List.mem_append_right _ i1, i2, by rw [h2, i3]⟩
    · exact .inr ⟨l, by rw [List.flatMap_cons]; exact List.mem_append_left _ h1, h2, by rw [h3]⟩

theorem resolveLit_resolves (tab : List (Label × Nat)) (x : AsmLit) :
    Resolves tab (litLabels x) (resolveLit tab x) (litAt (tableAddr tab) x) := by
  cases x with
  | lit v => exact .inl ⟨by simp [litLabels], rfl⟩
  | label l =>
    rcases addressOf_cases tab l with ⟨h1, h2⟩ | ⟨h1, h2⟩
    · exact .inl ⟨by simpa [litLabels] using h1, h2⟩
    · exact .inr ⟨l, by simp [litLabels], h1, h2⟩

theorem resolveOperand_resolves (tab : List (Label × Nat)) (x : AsmOperand) :
    Resolves tab (operandLabels x) (resolveOperand tab x) (operandAt (tableAddr tab) x) := by
  cases x with
  | imm i => exact (resolveLit_resolves tab i).map _
  | reg r => exact .inl ⟨by simp [operandLabels], rfl⟩
  | ind1 i => exact (resolveLit_resolves tab i).map _
  | ind2 r => exact .inl ⟨by simp [operandLabels], rfl⟩
  | ind3 i r => exact (resolveLit_resolves tab i).map _

theorem assembleInstr_resolves (tab : List (Label × Nat)) (i : AsmInstr) :
    Resolves tab (i.operands.flatMap operandLabels) (assembleInstr tab i) (instrAt (tableAddr tab) i).encode :=
  (resolves_mapUntilFault (resolveOperand_resolves tab) i.operands).map _

theorem assembleItem_resolves (tab : List (Label × Nat)) (d : DataItem) :
    Resolves tab (itemLabels d) (assembleItem tab d) (itemBytes (tableAddr tab) d) := by
  cases d with
  | text chars => exact .inl ⟨by simp [itemLabels], rfl⟩
  | quad v => exact (resolveLit_resolves tab v).map _

/-- R193, R194: pass 2 over a program. -/
theorem assembleElements_resolves (tab : List (Label × Nat)) (prog : List Element) :
    Resolves tab (prog.flatMap labelsIn) (assembleElements tab prog)
      ((prog.flatMap codeOf).map (fun i => (instrAt (tableAddr tab) i).encode),
        (prog.flatMap itemsOf).flatMap (itemBytes (tableAddr tab))) := by
  induction prog with
  | nil => exact .inl ⟨by simp, rfl⟩
  | cons e rest ih =>
    obtain ⟨label, body⟩ := e
    cases body with
    | code is =>
      have hl : labelsIn ⟨label, .code is⟩ = is.flatMap fun i => i.operands.flatMap operandLabels := by
        simp [labelsIn, codeOf, itemsOf]
      rw [List.flatMap_cons, hl]
      unfold assembleElements
      rcases resolves_mapUntilFault (assembleInstr_resolves tab) is with ⟨h1, h2⟩ | ⟨l, h1, h2, h3⟩
      · rcases ih with ⟨i1, i2⟩ | ⟨l, i1, i2, i3⟩
        · refine .inl ⟨fun l hl => (List.mem_append.mp hl).elim (h1 l) (i1 l), ?_⟩
          simp only [h2, i2]
          simp [Except.map, codeOf, itemsOf]
        · exact .inr ⟨l, List.mem_append_right _ i1, i2, by simp only [h2, i3]; rfl⟩
      · exact .inr ⟨l, List.mem_append_left _ h1, h2, by simp only [h3]⟩
    | data ds =>
      have hl : labelsIn ⟨label, .data ds⟩ = ds.flatMap itemLabels := by simp [labelsIn, codeOf, itemsOf]
      rw [List.flatMap_cons, hl]
      unfold assembleElements
      rcases resolves_mapUntilFault (assembleItem_resolves tab) ds with ⟨h1, h2⟩ | ⟨l, h1, h2, h3⟩
      · rcases ih with ⟨i1, i2⟩ | ⟨l, i1, i2, i3⟩
        · refine .inl ⟨fun l hl => (List.mem_append.mp hl).elim (h1 l) (i1 l), ?_⟩
          simp only [h2, i2]
          simp [Except.map, codeOf, itemsOf, List.flatMap_def]
        · exact .inr ⟨l, List.mem_append_right _ i1, i2, by simp only [h2, i3]; rfl⟩
      · exact .inr ⟨l, List.mem_append_left _ h1, h2, by simp only [h3]⟩

theorem codeTotal_eq (prog : List Element) : codeTotal prog = 4 * (prog.flatMap codeOf).length := by
  induction prog with
  | nil => rfl
  | cons e rest ih =>
    obtain ⟨label, body⟩ := e
    cases body <;> simp [codeTotal, codeOf, insSize, ih, Nat.mul_add]

theorem dataSize_eq (ds : List DataItem) : dataSize ds = (ds.map itemCost).sum := by
  induction ds with
  | nil => rfl
  | cons d ds ih => cases d <;> simp [dataSize, DataItem.size, itemCost, ih]

/-- R191: the address that pass 1 gives an element whose label no earlier element has. -/
theorem tableAddr_symbolsFrom (code data : Nat) (before after : List Element) (e : Element)
    (h : e.label ∉ before.map Element.label) :
    tableAddr (symbolsFrom code data (before ++ e :: after)) e.label =
      BitVec.ofNat 64 (match e.body with
        | .code _ => code + 4 * (before.flatMap codeOf).length
        | .data _ => data + ((before.flatMap itemsOf).map itemCost).sum) := by
  induction before generalizing code data with
  | nil =>
    obtain ⟨label, body⟩ := e
    cases body <;> simp [symbolsFrom, tableAddr, addressOf]
  | cons b before ih =>
    obtain ⟨m, body⟩ := b
    simp only [List.map_cons, List.mem_cons, not_or] at h
    have hne : m ≠ e.label := Ne.symm h.1
    cases body with
    | code is =>
      have : tableAddr (symbolsFrom code data (⟨m, .code is⟩ :: before ++ e :: after)) e.label =
          tableAddr (symbolsFrom (code + insSize * is.length) data (before ++ e :: after)) e.label := by
        simp [symbolsFrom, tableAddr, addressOf, hne]
      rw [this, ih _ _ h.2]
      cases e.body <;> simp [codeOf, itemsOf, insSize, Nat.mul_add, Nat.add_assoc]
    | data ds =>
      have : tableAddr (symbolsFrom code data (⟨m, .data ds⟩ :: before ++ e :: after)) e.label =
          tableAddr (symbolsFrom code (data + dataSize ds) (before ++ e :: after)) e.label := by
        simp [symbolsFrom, tableAddr, addressOf, hne]
      rw [this, ih _ _ h.2]
      cases e.body <;> simp [codeOf, itemsOf, dataSize_eq, Nat.add_assoc]

end Sys2Proof.Safety
end

