-- ==== Sys2Proof/Tests/Slice0.lean ====
section
/-! SUPPORT. Tests on fixed values. Expected results are those of spec/95_test_vectors.md (the vector's id is cited) or are
worked out by hand from the rule cited; and, for each statement that has hypotheses, a witness that meets them. -/

namespace Sys2Proof.Tests

open Sys2Proof.Machine Sys2Proof.Safety

/-! ## Helpers -/

/-- The number of a head word from its header `w[31:0]`, `ai` and `bi` (R61). -/
def bits (hdr : Nat) (ai : Nat := 0) (bi : Nat := 0) : Nat := bi * 2 ^ 96 + ai * 2 ^ 32 + hdr

def word (hdr : Nat) (ai : Nat := 0) (bi : Nat := 0) : HeadWord := BitVec.ofNat 160 (bits hdr ai bi)

/-- The instruction the decoder reads. -/
def read (hdr : Nat) (ai : Nat := 0) (bi : Nat := 0) : Option Instr := decodeTableWord 160 (bits hdr ai bi)

/-- The reset machine with one instruction at `pc0` = 0x400000. -/
def at0 (hdr : Nat) (ai : Nat := 0) (bi : Nat := 0) : State := State.reset.withFetchWord 160 (bits hdr ai bi)

/-- The reset machine with a register, the flags or a word of memory changed. -/
def regIs (r : Reg) (v : Word) (s : State) : State := s.setReg r v
def flagsAre (o sf z : Bool) (s : State) : State := s.setFlags ⟨o, sf, z⟩
def wordIs (a : Nat) (v : Word) (s : State) : State := s.setCells a ((quadBytes v).map .byte)

/-- A view of the state after one step. -/
def look {α : Type} (f : State → α) (s : State) : Option α :=
  match step s with
  | .next t => some (f t)
  | _ => none

/-- `rax` and the flags, as `OF SF ZF`. -/
def raxFlags (s : State) : Word × Bool × Bool × Bool := (s.reg .rax, s.flags.OF, s.flags.SF, s.flags.ZF)

/-- `FAULT(kind, cause, FAULT_ADDR, FAULT_IP, FAULT_OPC)` with `STATE` = FAULTED. -/
def fault (kind : BitVec 2) (cause : BitVec 4) (addr ip : Word) (opc : Byte) : Option Status :=
  some ⟨2, kind, cause, addr, ip, opc⟩

/-! ## Well-formedness: each check refuses -/

theorem test_wf_refuses_immediate_destination :
    [Instr.incq (.imm 1), .decq (.imm 1), .negq (.imm 1), .notq (.imm 1), .sete (.imm 0), .setne (.imm 0), .setg (.imm 0),
      .setge (.imm 0), .setl (.imm 0), .setle (.imm 0), .popq (.imm 0),
      .addq (.reg .rax) (.imm 5), .subq (.imm 1) (.imm 2), .imulq (.imm 1) (.imm 2), .andq (.imm 1) (.imm 2),
      .orq (.imm 1) (.imm 2), .xorq (.imm 1) (.imm 2), .movq (.imm 1) (.imm 2), .leaq (.ind (.ind1 0)) (.imm 2),
      .sarq (.imm 1) (.imm 2), .shlq (.imm 1) (.imm 2), .shrq (.imm 1) (.imm 2)].all (fun i => !i.wellFormed) = true := by
  decide

theorem test_wf_refuses_rip :
    [Instr.incq (.reg .rip), .movq (.reg .rip) (.reg .rax), .movq (.imm 1) (.ind (.ind2 .rip)), .cmpq (.imm 1) (.reg .rip),
      .cmpq (.reg .rip) (.imm 1), .leaq (.ind (.ind3 8 .rip)) (.reg .rax), .pushq (.reg .rip), .popq (.ind (.ind2 .rip)),
      .jmp (.ind (.ind2 .rip)), .callq (.reg .rip), .je (.ind (.ind3 0 .rip)), .jne (.reg .rip), .jg (.reg .rip),
      .jge (.reg .rip), .jl (.reg .rip), .jle (.reg .rip), .shlq (.reg .rip) (.reg .rax)].all
        (fun i => !i.wellFormed) = true := by
  decide

theorem test_wf_refuses_shift_amount :
    [Instr.shlq (.reg .rax) (.reg .rbx), .sarq (.ind (.ind2 .rcx)) (.reg .rbx), .shrq (.ind (.ind1 0)) (.reg .rbx)].all
      (fun i => !i.wellFormed) = true := by
  decide

theorem test_wf_refuses_leaq_source :
    [Instr.leaq (.reg .rax) (.reg .rbx), .leaq (.imm 8) (.reg .rbx)].all (fun i => !i.wellFormed) = true := by
  decide

/-- T-F30, T-F31 and R72: forms that are allowed. -/
theorem test_wf_accepts :
    [Instr.cmpq (.imm 1) (.imm 2), .imulq (.imm 3) (.ind (.ind1 0x400100)), .movq (.ind (.ind1 0)) (.ind (.ind2 .rax)),
      .shlq (.reg .rcx) (.reg .rcx), .retq, .callq (.imm 0)].all Instr.wellFormed = true := by
  decide

/-! ## Decoding: a written-out word for every constructor (R61 to R65; the words of spec/95_test_vectors.md) -/

theorem test_decode_incq : read 0x00010801 = some (.incq (.reg .rax)) := by decide
theorem test_decode_decq : read 0x00110802 = some (.decq (.reg .rcx)) := by decide
theorem test_decode_negq : read 0x00010803 = some (.negq (.reg .rax)) := by decide
theorem test_decode_addq : read 0x01231004 = some (.addq (.ind (.ind2 .rsi)) (.reg .rax)) := by decide
theorem test_decode_subq : read 0x01091005 = some (.subq (.reg .rbx) (.reg .rax)) := by decide
theorem test_decode_imulq : read 0x02001006 0x3 0x400100 = some (.imulq (.imm 3) (.ind (.ind1 0x400100))) := by decide
theorem test_decode_notq : read 0x00010807 = some (.notq (.reg .rax)) := by decide
theorem test_decode_andq : read 0x01001008 0xFF00 = some (.andq (.imm 0xFF00) (.reg .rax)) := by decide
theorem test_decode_orq : read 0x01001009 0xF0 = some (.orq (.imm 0xF0) (.reg .rax)) := by decide
theorem test_decode_xorq : read 0x0101100A = some (.xorq (.reg .rax) (.reg .rax)) := by decide
theorem test_decode_sarq : read 0x0100100B 0x2 = some (.sarq (.imm 2) (.reg .rax)) := by decide
theorem test_decode_shlq : read 0x0100100C 0x41 = some (.shlq (.imm 65) (.reg .rax)) := by decide
theorem test_decode_shrq : read 0x0111100D = some (.shrq (.reg .rcx) (.reg .rax)) := by decide
theorem test_decode_cmpq : read 0x0000100E 0x1 0x2 = some (.cmpq (.imm 1) (.imm 2)) := by decide
theorem test_decode_movq :
    read 0x0C00100F 0x2A 0xFFFFFFFFFFFFFFF8 = some (.movq (.imm 42) (.ind (.ind3 0xFFFFFFFFFFFFFFF8 .rbx))) := by decide
theorem test_decode_leaq : read 0x010C1010 0x10 = some (.leaq (.ind (.ind3 0x10 .rbx)) (.reg .rax)) := by decide
theorem test_decode_sete : read 0x00020811 0x400100 = some (.sete (.ind (.ind1 0x400100))) := by decide
theorem test_decode_setne : read 0x00090911 = some (.setne (.reg .rbx)) := by decide
theorem test_decode_setg : read 0x00010A11 = some (.setg (.reg .rax)) := by decide
theorem test_decode_setge : read 0x00010B11 = some (.setge (.reg .rax)) := by decide
theorem test_decode_setl : read 0x00190C11 = some (.setl (.reg .rdx)) := by decide
theorem test_decode_setle : read 0x00010D11 = some (.setle (.reg .rax)) := by decide
theorem test_decode_pushq : read 0x00390812 = some (.pushq (.reg .rsp)) := by decide
theorem test_decode_popq : read 0x00090813 = some (.popq (.reg .rbx)) := by decide
theorem test_decode_jmp : read 0x00020814 0x40FFF8 = some (.jmp (.ind (.ind1 0x40FFF8))) := by decide
theorem test_decode_callq : read 0x00000815 0x400020 = some (.callq (.imm 0x400020)) := by decide
theorem test_decode_retq : read 0x00000016 = some .retq := by decide
theorem test_decode_je : read 0x00000817 0x400040 = some (.je (.imm 0x400040)) := by decide
theorem test_decode_jne : read 0x00000917 0x400040 = some (.jne (.imm 0x400040)) := by decide
theorem test_decode_jg : read 0x00000A17 0x400040 = some (.jg (.imm 0x400040)) := by decide
theorem test_decode_jge : read 0x00000B17 0x400040 = some (.jge (.imm 0x400040)) := by decide
theorem test_decode_jl : read 0x00000C17 0x400040 = some (.jl (.imm 0x400040)) := by decide
theorem test_decode_jle : read 0x00000D17 0x400040 = some (.jle (.imm 0x400040)) := by decide

/-- R20: registers 8 to 15 by number; R69: an ignored register field (T-F16). -/
theorem test_decode_high_registers_and_ignored_fields :
    read 0x7941100F = some (.movq (.reg .r08) (.reg .r15)) ∧
      read 0x00FA0812 0x40FFF0 = some (.pushq (.ind (.ind1 0x40FFF0))) := by decide

/-- T-F1 to T-F15: the words that do not decode, and the first check that fails. -/
theorem test_decode_refuses :
    [word 0x00000000, word 0x00000018, word 0x000000FF].map decodeVerdict = List.replicate 3 (some .reservedOpcode) ∧
      [word 0x01093004, word 0x00002000].map decodeVerdict = List.replicate 2 (some .reservedBits) ∧
      [word 0x00000914 0x400000, word 0x00010E11, word 0x00000F17].map decodeVerdict =
        List.replicate 3 (some .conditionCode) ∧
      [word 0x01011001, word 0x00000816, word 0x01011804].map decodeVerdict = List.replicate 3 (some .operandCount) ∧
      [word 0x00050801, word 0x07011004].map decodeVerdict = List.replicate 2 (some .operandKind) ∧
      [word 0x00890801, word 0x00FC0812].map decodeVerdict = List.replicate 2 (some .registerIndex) := by decide

theorem test_decode_refuses_as_judged :
    [read 0x00000000, read 0x01093004, read 0x00000914, read 0x01011804, read 0x07011004, read 0x00890801] =
      List.replicate 6 none := by decide

/-! ## One step of each instruction -/

/-- T-A2. -/
theorem test_incq : look raxFlags (flagsAre true true true (regIs .rax 0xFFFFFFFFFFFFFFFF (at0 0x00010801))) =
    some (0, false, false, true) := by decide
/-- T-A24. -/
theorem test_incq_fault : look readStatus (regIs .rbx 0x40FFFC (at0 0x000B0801)) =
    fault 1 3 0x40FFFC 0x400000 0x01 := by decide
/-- T-A5. -/
theorem test_decq : look raxFlags (regIs .rax 0x8000000000000000 (at0 0x00010802)) =
    some (0x7FFFFFFFFFFFFFFF, true, false, false) := by decide
/-- T-A8, T-A9. -/
theorem test_negq : look raxFlags (regIs .rax 0x8000000000000000 (at0 0x00010803)) =
    some (0x8000000000000000, true, true, false) := by decide
theorem test_negq_plain : look raxFlags (regIs .rax 7 (at0 0x00010803)) =
    some (0xFFFFFFFFFFFFFFF9, false, true, false) := by decide
/-- T-A11. -/
theorem test_addq : look raxFlags (regIs .rax 0x8000000000000000 (at0 0x01011004)) = some (0, true, false, true) := by decide
/-- T-A23: a memory destination. -/
theorem test_addq_memory :
    look (fun t => (t.wordAt 0x400100, t.reg .rbx)) (wordIs 0x400100 0x10 (regIs .rbx 0x400100 (at0 0x0B001004 0x5))) =
      some (0x15, 0x400100) := by decide
/-- T-A14, T-A18: the order of the operands. -/
theorem test_subq : look raxFlags (at0 0x01001005 0x8000000000000000) = some (0x8000000000000000, true, true, false) := by
  decide
theorem test_subq_order : look raxFlags (regIs .rbx 3 (regIs .rax 10 (at0 0x01091005))) = some (7, false, false, false) := by
  decide
/-- T-A20, T-A21. -/
theorem test_imulq : look raxFlags (regIs .rax 0x100000000 (at0 0x01011006)) = some (0, true, false, true) := by decide
theorem test_imulq_signed : look raxFlags (regIs .rax 0xFFFFFFFFFFFFFFFD (at0 0x01001006 0x5)) =
    some (0xFFFFFFFFFFFFFFF1, false, true, false) := by decide
/-- T-L1, with OF set before. -/
theorem test_notq : look raxFlags (flagsAre true true false (regIs .rax 0xFFFFFFFFFFFFFFFF (at0 0x00010807))) =
    some (0, false, false, true) := by decide
/-- T-L3. -/
theorem test_andq : look raxFlags (flagsAre true true true (regIs .rax 0xF0F0 (at0 0x01001008 0xFF00))) =
    some (0xF000, false, false, false) := by decide
/-- T-L5, T-L6. -/
theorem test_orq : look raxFlags (at0 0x01001009 0x8000000000000000) = some (0x8000000000000000, false, true, false) := by
  decide
theorem test_orq_low : look raxFlags (regIs .rax 0x0F (at0 0x01001009 0xF0)) = some (0xFF, false, false, false) := by decide
/-- T-L8. -/
theorem test_xorq : look raxFlags (regIs .rax 0xFF (at0 0x0100100A 0xF)) = some (0xF0, false, false, false) := by decide
/-- T-H1: OF is kept by an amount of 2. -/
theorem test_sarq : look raxFlags (flagsAre true true true (regIs .rax 0xFFFFFFFFFFFFFFF0 (at0 0x0100100B 0x2))) =
    some (0xFFFFFFFFFFFFFFFC, true, true, false) := by decide
/-- T-H4: an amount of 1 clears OF. -/
theorem test_sarq_one : look raxFlags (flagsAre true true true (regIs .rax 0xFFFFFFFFFFFFFFFF (at0 0x0100100B 0x1))) =
    some (0xFFFFFFFFFFFFFFFF, false, true, false) := by decide
/-- T-H6, T-H10. -/
theorem test_shlq : look raxFlags (regIs .rax 0x8000000000000000 (at0 0x0100100C 0x1)) = some (0, true, false, true) := by
  decide
theorem test_shlq_amount_masks_to_zero : look raxFlags (flagsAre true true true (regIs .rax 5 (at0 0x0100100C 0x40))) =
    some (5, true, true, true) := by decide
/-- T-H12, T-H13. -/
theorem test_shrq : look raxFlags (regIs .rax 0x8000000000000000 (at0 0x0100100D 0x1)) =
    some (0x4000000000000000, true, false, false) := by decide
theorem test_shrq_rcx : look raxFlags (flagsAre true true true (regIs .rcx 4 (regIs .rax 0xFF00 (at0 0x0111100D)))) =
    some (0x0FF0, true, false, false) := by decide
/-- T-C1, T-C2. -/
theorem test_cmpq : look raxFlags (regIs .rax 5 (at0 0x0100100E 0x7)) = some (5, false, true, false) := by decide
theorem test_cmpq_immediate : look raxFlags (at0 0x0000100E 0x8000000000000000) = some (0, true, true, false) := by decide
/-- T-M11: little-endian, with an address that wraps (R44, R83). -/
theorem test_movq_store :
    look (fun t => (List.range 8).map fun i => t.cell (0x400100 + i))
      (regIs .rbx 0x400108 (at0 0x0C00100F 0x0102030405060708 0xFFFFFFFFFFFFFFF8)) =
      some [.byte 8, .byte 7, .byte 6, .byte 5, .byte 4, .byte 3, .byte 2, .byte 1] := by decide
/-- T-M8: the cell at the address is a head. -/
theorem test_movq_instruction_cell : look readStatus (at0 0x0102100F 0x400000) =
    fault 1 5 0x400000 0x400000 0x0F := by decide
/-- T-D5, T-D6. -/
theorem test_leaq : look (fun t => t.reg .rax) (at0 0x013C1010 0xFFFFFFFFFFFFFFF8) = some 0x40FFF0 := by decide
theorem test_leaq_no_read : look (fun t => (t.reg .rax, t.runState)) (at0 0x010C1010 0x10) = some (0x10, .running) := by decide
/-- T-D9, T-D12. -/
theorem test_sete : look (fun t => t.wordAt 0x400100)
    (flagsAre false false true (wordIs 0x400100 0x1122334455667788 (at0 0x00020811 0x400100))) = some 0x1122334455667701 := by
  decide
theorem test_sete_fault : look readStatus (at0 0x00020811 0x40FFFC) = fault 1 3 0x40FFFC 0x400000 0x11 := by decide
/-- T-D8. -/
theorem test_setne : look (fun t => t.reg .rbx) (flagsAre false false true (regIs .rbx 0x12FF (at0 0x00090911))) =
    some 0x1200 := by decide
/-- T-D11. -/
theorem test_setg : look (fun t => t.reg .rax) (flagsAre false false true (regIs .rax 0xFFFFFFFFFFFFFFFF (at0 0x00010A11))) =
    some 0xFFFFFFFFFFFFFF00 := by decide
/-- T-C4, row `1 1 1`: Ge. -/
theorem test_setge : look (fun t => t.reg .rax) (flagsAre true true true (at0 0x00010B11)) = some 1 := by decide
/-- T-D10. -/
theorem test_setl : look (fun t => t.reg .rdx) (flagsAre false true false (at0 0x00190C11)) = some 1 := by decide
/-- T-C6: the gated condition. -/
theorem test_setl_gated : look (fun t => t.reg .rbx)
    (flagsAre true false true { at0 0x00090C11 with params := { ltGatedByZf := true } }) = some 0 := by decide
/-- T-C4, row `1 0 1`: Le. -/
theorem test_setle : look (fun t => t.reg .rax) (flagsAre true false true (at0 0x00010D11)) = some 1 := by decide
/-- T-K3: the old `rsp` is pushed. -/
theorem test_pushq : look (fun t => (t.reg .rsp, t.wordAt 0x40FFF0)) (at0 0x00390812) = some (0x40FFF0, 0x40FFF8) := by decide
/-- T-K5. -/
theorem test_pushq_fault : look readStatus (regIs .rsp 0x400000 (at0 0x00000812 0x1)) =
    fault 1 4 0x3FFFF8 0x400000 0x12 := by decide
/-- T-K2, T-K4. -/
theorem test_popq : look (fun t => (t.reg .rbx, t.reg .rsp)) (wordIs 0x40FFF0 9 (regIs .rsp 0x40FFF0 (at0 0x00090813))) =
    some (9, 0x40FFF8) := by decide
theorem test_popq_rsp : look (fun t => t.reg .rsp) (at0 0x00390813) = some 0xFDEB5 := by decide
/-- T-K8, T-K9. -/
theorem test_jmp : look (fun t => (t.reg .rip, t.runState)) (at0 0x00020814 0x40FFF8) = some (0xFDEAD, .halted) := by decide
theorem test_jmp_register : look (fun t => t.reg .rip) (regIs .rbx 0x400008 (at0 0x00090814)) = some 0x400008 := by decide
/-- T-K10, with `pc0` = 0x400000. -/
theorem test_callq : look (fun t => (t.reg .rip, t.reg .rsp, t.wordAt 0x40FFF0)) (at0 0x00000815 0x400020) =
    some (0x400020, 0x40FFF0, 0x400004) := by decide
/-- T-K11, T-K6. -/
theorem test_retq : look (fun t => (t.reg .rip, t.reg .rsp, t.runState)) (at0 0x00000016) =
    some (0xFDEAD, 0x410000, .halted) := by decide
theorem test_retq_fault : look readStatus (regIs .rsp 0x410000 (at0 0x00000016)) =
    fault 1 3 0x410000 0x400000 0x16 := by decide
/-- T-C4 row `0 0 1` taken; T-K14 not taken, and the target is read all the same. -/
theorem test_je : look (fun t => t.reg .rip) (flagsAre false false true (at0 0x00000817 0x400040)) = some 0x400040 := by decide
theorem test_je_fault : look readStatus (at0 0x00020817) = fault 1 3 0 0x400000 0x17 := by decide
/-- T-C4, row `0 0 1`. -/
theorem test_jne : look (fun t => t.reg .rip) (flagsAre false false true (at0 0x00000917 0x400040)) = some 0x400004 := by decide
/-- T-C4, row `1 1 0`. -/
theorem test_jg : look (fun t => t.reg .rip) (flagsAre true true false (at0 0x00000A17 0x400040)) = some 0x400040 := by decide
/-- T-C4, row `0 1 1`. -/
theorem test_jge : look (fun t => t.reg .rip) (flagsAre false true true (at0 0x00000B17 0x400040)) = some 0x400004 := by decide
/-- T-K12, T-K13. -/
theorem test_jl : look (fun t => t.reg .rip) (flagsAre false true false (at0 0x00000C17 0x400040)) = some 0x400040 := by decide
theorem test_jl_not_taken : look (fun t => t.reg .rip) (at0 0x00000C17 0x400040) = some 0x400004 := by decide
/-- T-C4, row `0 0 1`. -/
theorem test_jle : look (fun t => t.reg .rip) (flagsAre false false true (at0 0x00000D17 0x400040)) = some 0x400040 := by decide

/-! ## Faults of the step, the loader, the host, the assembler -/

/-- T-F2, T-F1, T-F7, T-F9, T-F12, T-F14. -/
theorem test_decode_faults :
    [look readStatus (at0 0x01093004), look readStatus (at0 0x00000000), look readStatus (at0 0x00010E11), look readStatus (at0 0x01011001),
      look readStatus (at0 0x00050801), look readStatus (at0 0x00890801)] =
    [fault 2 1 0x400000 0x400000 0x04, fault 2 2 0x400000 0x400000 0x00,
      fault 2 3 0x400000 0x400000 0x11, fault 2 4 0x400000 0x400000 0x01,
      fault 2 5 0x400000 0x400000 0x01, fault 2 6 0x400000 0x400000 0x01] := by decide

/-- T-F17, T-F20, T-F27, T-F28. -/
theorem test_malformed_faults :
    [look readStatus (at0 0x0181100F), look readStatus (at0 0x0000100F 0x1 0x2), look readStatus (at0 0x0001100C 0 0x2),
      look readStatus (at0 0x09011010)] =
    [fault 3 1 0x400000 0x400000 0x0F, fault 3 2 0x400000 0x400000 0x0F,
      fault 3 3 0x400000 0x400000 0x0C, fault 3 4 0x400000 0x400000 0x10] := by decide

/-- T-K16, T-M13: fetches that fault. -/
theorem test_fetch_faults :
    [look readStatus (regIs .rip 0x10 State.reset), look readStatus (regIs .rip 0x40FFFF State.reset)] =
      [fault 1 1 0x10 0x10 0, fault 1 2 0x40FFFF 0x40FFFF 0] := by decide

/-- The image of P7 of spec/95_test_vectors.md. -/
def imageP7 : Image where
  entry := 0x400000
  textPos := 0x400000
  dataPos := 0x400008
  text := [word 0x0100100F 5, word 0x00020814 0x40FFF8]
  data := []

/-- P7: halted after two steps with the result 5. -/
theorem test_load_and_run : (match load .default imageP7 with
    | .next s => readResult (hostRun 5 s)
    | _ => none) = some 5 := by decide

/-- T-S4, T-S5: image-build faults. -/
theorem test_assembly_faults :
    [assemble .default "main" [⟨"main", .code []⟩, ⟨"main", .data []⟩],
      assemble .default "main" [⟨"main", .code [⟨.jmp, [.imm (.label "foo")]⟩]⟩],
      assemble .default "main" [⟨"start", .code []⟩]].map (fun r => match r with
        | .error f => some f
        | .ok _ => none) =
    [some (.redefinedSymbol "main"), some (.undefinedSymbol "foo"), some (.undefinedSymbol "main")] := by decide

/-- P7 in assembler form; T-S2: the bytes of "hi". -/
theorem test_assembly :
    (match assemble .default "main"
        [⟨"main", .code [⟨.movq, [.imm (.lit 5), .reg .rax]⟩, ⟨.jmp, [.ind1 (.lit 0x40FFF8)]⟩]⟩] with
      | .ok img => some img
      | .error _ => none) = some imageP7 ∧
    textBytes [0x68, 0x69] = [0x68, 0x69, 0x00] := by decide

/-- R191, R193: `main: movq $arr, %rsi`, `retq`, and `arr: .quad -5` right after the code, at 0x400008. -/
theorem test_assembly_labels :
    (match assemble .default "main"
        [⟨"main", .code [⟨.movq, [.imm (.label "arr"), .reg .rsi]⟩, ⟨.retq, []⟩]⟩, ⟨"arr", .data [.quad (.lit (-5))]⟩] with
      | .ok img => some img
      | .error _ => none) =
    some { entry := 0x400000, textPos := 0x400000, dataPos := 0x400008,
           text := [word 0x2100100F 0x400008, word 0x00000016],
           data := [0xFB, 0xFF, 0xFF, 0xFF, 0xFF, 0xFF, 0xFF, 0xFF] } := by decide

/-! ## Witnesses: states and operands that meet the hypotheses of each statement together

In `w0` an instruction executes that was fetched from 0x400000: `rip` has been advanced, a head stands at 0x400000, and every
other cell is as a load leaves it. 0x40FFF8 is the last address of a valid 8-byte access and 0x40FFF9 the first that is none;
0x400004 is the first address whose 8 cells hold bytes. -/

def w0 : State := regIs .rip 0x400004 (at0 0x00000016)

/-- `w0` with `INSN_CELL_READ` = zero. -/
def w1 : State := { w0 with params := { insnCellRead := .zero } }

def last : Operand := .ind (.ind1 0x40FFF8)
def first : Operand := .ind (.ind1 0x400004)
def past : Indirect := .ind1 0x40FFF9
def head0 : Indirect := .ind1 0x400000

theorem witness_CanonicalWordsEncodeBack :
    ∃ i, decode (word 0x01091004) = .ok i ∧ HeadWord.canonical (word 0x01091004) = true := ⟨_, rfl, by decide⟩

theorem witness_DecodeChecksRunInOrder : decodeVerdict (word 0x01091004) = none ∧ decodeVerdict (word 0x00000016) = none ∧
    decodeVerdict (word 0x00000D17 0x400040) = none := by decide

theorem witness_UnusedFieldsAreIgnored :
    (unpack (word 0x00000812 1)).a.kind = 0 ∧ (unpack (word 0x00FA0812 0x40FFF0)).a.kind = 2 ∧
    (unpack (word 0x00010801)).a.kind = 1 ∧ (unpack (word 0x000B0801)).a.kind = 3 ∧
    (unpack (word 0x0000100E)).b.kind = 0 ∧ (unpack (word 0x0200100F)).b.kind = 2 ∧
    (unpack (word 0x0101100A)).b.kind = 1 ∧ (unpack (word 0x0B001004)).b.kind = 3 ∧
    (unpack (word 0x00010801)).nops.toNat < 2 ∧ (unpack (word 0x00000016)).nops = 0 := by decide

/-- At the lowest and at the highest address of the window. -/
theorem witness_StepRunsDecodedInstruction :
    (∃ i, decode (word 0x00000016) = .ok i) ∧
    [at0 0x00000016, (regIs .rip 0x40FFFF State.reset).withFetchWord 160 0x16].all (fun s =>
      s.runState == .running && s.params.memBot ≤ (s.reg .rip).toNat && (s.reg .rip).toNat < s.params.memTop &&
        s.cell (s.reg .rip).toNat == .head (word 0x00000016)) = true := ⟨⟨_, rfl⟩, by decide⟩

theorem witness_FetchFaultsAndFetches :
    [0x3FFFFF, 0x400000, 0x40FFFF, 0x410000].map (fun a =>
      let s := regIs .rip a State.reset
      (s.runState, decide (s.params.memBot ≤ (s.reg .rip).toNat ∧ (s.reg .rip).toNat < s.params.memTop),
        s.cell (s.reg .rip).toNat)) =
      [(.running, false, .byte 0), (.running, true, .byte 0), (.running, true, .byte 0), (.running, false, .byte 0)] ∧
    (at0 0x00000016).cell 0x400000 = .head (word 0x00000016) := by decide

theorem witness_UndecodableWordsFault :
    (at0 0x01093004).runState = .running ∧ (at0 0x01093004).cell 0x400000 = .head (word 0x01093004) ∧
      decodeVerdict (word 0x01093004) = some .reservedBits ∧ (at0 0x01093004).reg .rip = 0x400000 := by decide

theorem witness_StepEnabledOnlyWhenRunning :
    State.reset.runState = .running ∧ ({ w0 with runState := .halted } : State).runState ≠ .running ∧
      ({ w0 with runState := .faulted } : State).runState ≠ .running := by decide

theorem witness_HaltedExactlyAtTheSentinel :
    (∃ t, step (at0 0x00000814 0xFDEAD) = .next t ∧ t.runState ≠ .faulted) ∧
    (∃ s, load .default imageP7 = .next s) ∧ ({ w0 with runState := .halted } : State).runState = .halted :=
  ⟨⟨_, rfl, by decide⟩, ⟨_, rfl⟩, rfl⟩

/-- A fault of the fetch, and one of an instruction. -/
theorem witness_FaultRecordsAndKeepsAPrefix :
    (∃ t, step State.reset = .next t ∧ t.runState = .faulted ∧ ∃ e, fetchCell State.reset (State.reset.reg .rip) = .error e) ∧
    ∃ t, step (at0 0x00000801 1) = .next t ∧ t.runState = .faulted ∧ ∃ w, fetchCell (at0 0x00000801 1) 0x400000 = .ok w :=
  ⟨⟨_, rfl, rfl, _, rfl⟩, ⟨_, rfl, rfl, _, rfl⟩⟩

theorem witness_IllFormedOperandsFault_allowed : Instr.wellFormed (.popq last) = true ∧ w0.runState = .running := by decide

theorem witness_IllFormedOperandsFault :
    [Instr.incq (.imm 1), .cmpq (.imm 1) (.reg .rip), .leaq (.reg .rax) (.reg .rbx), .shlq (.reg .rax) (.imm 2)].map
      (fun i => (i.wellFormed, shapeCause i)) = [(false, 2), (false, 1), (false, 4), (false, 3)] := by decide

theorem witness_UnreadableSourceFaults :
    Instr.wellFormed (.je (.ind past)) = true ∧ sourceOf (.je (.ind past)) = some (.ind past) ∧
      readable w0 (w0.ea past) = false ∧ inWindow8 w0.params (w0.ea past) = false ∧
    Instr.wellFormed (.addq (.ind head0) (.reg .rax)) = true ∧ readable w0 (w0.ea head0) = false ∧
      inWindow8 w0.params (w0.ea head0) = true := by decide

theorem witness_UnreadableDestinationFaults :
    (Instr.wellFormed (.addq last (.ind past)) = true ∧ secondRead (.addq last (.ind past)) = some (.ind past) ∧
      readable w0 (w0.ea past) = false) ∧
    ∀ src, sourceOf (.addq last (.ind past)) = some src → operandReadable w0 src = true :=
  ⟨by decide, fun _ h => by cases h; decide⟩

theorem witness_UnwritableDestinationFaults :
    past.noRip = true ∧ inWindow8 w0.params (w0.ea past) = false ∧ last.anySource = true ∧ operandReadable w0 last = true ∧
      head0.noRip = true ∧ readable w0 (w0.reg .rsp) = true := by decide

theorem witness_StackAccessFaults :
    inWindow8 w0.params ((regIs .rsp 0x400007 w0).reg .rsp - 8) = false ∧ first.anySource = true ∧
      operandReadable (regIs .rsp 0x400007 w0) first = true ∧
    readable (regIs .rsp 0x40FFF9 w0) ((regIs .rsp 0x40FFF9 w0).reg .rsp) = false ∧ last.destination = true ∧
    readable (regIs .rsp 0x400003 w0) ((regIs .rsp 0x400003 w0).reg .rsp) = false ∧
    inWindow8 w0.params ((regIs .rsp 0x400003 w0).reg .rsp) = true := by decide

/-- For UnaryArithmeticCompletes, BinaryArithmeticCompletes, LogicalCompletes, CompareCompletes, MoveCompletes,
SetOnConditionCompletes, JumpCompletes and ConditionalJumpCompletes: a register, the two ends of memory, and a head or filler,
which is readable when `INSN_CELL_READ` = zero. -/
theorem witness_operands :
    ([.reg .rax, first, last] : List Operand).all (fun d =>
      d.destination && d.anySource && operandReadable w0 d && operandWritable w0 d) = true ∧
    operandReadable w0 (.imm 5) = true ∧ (Operand.imm 5).anySource = true ∧ operandReadable w1 (.ind head0) = true := by
  decide

theorem witness_ShiftsComplete :
    (Operand.imm 65).shiftAmount = true ∧ (Operand.reg .rcx).shiftAmount = true ∧ last.destination = true ∧
      operandReadable w0 last = true := by decide

theorem witness_LoadAddressCompletes :
    past.noRip = true ∧ (Indirect.ind2 .rbx).noRip = true ∧ (Indirect.ind3 8 .rbx).noRip = true ∧ last.destination = true ∧
      operandWritable w0 last = true := by decide

/-- For PushCompletes, CallCompletes, PushThenPopRestores (with the register `rax`) and CallThenReturnResumes: `rsp - 8` at
the two ends of the window. -/
theorem witness_push :
    last.anySource = true ∧ operandReadable w0 last = true ∧ Reg.rax ≠ .rip ∧ Reg.rax ≠ .rsp ∧
      inWindow8 w0.params (w0.reg .rsp - 8) = true ∧
      inWindow8 w0.params ((regIs .rsp 0x400008 w0).reg .rsp - 8) = true ∧
      inWindow8 w0.params ((regIs .rsp 0x410000 w0).reg .rsp - 8) = true := by decide

/-- For PopCompletes (with the register `rax`) and ReturnCompletes: `rsp` at the last valid address; a destination in memory
at the other end. -/
theorem witness_pop : Reg.rax ≠ .rip ∧ Reg.rax ≠ .rsp ∧ w0.reg .rsp = 0x40FFF8 ∧ readable w0 (w0.reg .rsp) = true ∧ head0.noRip = true ∧
    inWindow8 w0.params (w0.ea head0) = true := by decide

theorem witness_ConditionsAreTabled :
    Params.default.ltGatedByZf = false ∧ ({ ltGatedByZf := true } : Params).ltGatedByZf = true := by decide

theorem witness_AddressesMapExactlyInTheWindow :
    [0x3FFFFF, 0x400000, 0x40FFFF, 0x410000, 0x100410000].map (mapAddr .default) =
      [none, some 0, some 0xFFFF, none, none] := by decide

/-- T-M1 to T-M5, for `n` = 8. -/
theorem witness_AccessValidExactlyWhenEveryCellMaps :
    0 < 8 ∧ [0x400000, 0x40FFF8, 0x40FFF9, 0x3FFFFF, 0xFFFFFFFFFFFFFFFC].map (fun a => validAccess .default a 8) =
      [true, true, false, false, false] := by decide

theorem witness_DataReadsFaultOrGatherBytes :
    inWindow8 w0.params 0x40FFF9 = false ∧ inWindow8 w0.params 0x400003 = true ∧ cellsReadable w0 0x400003 = false ∧
      inWindow8 w0.params 0x400004 = true ∧ cellsReadable w0 0x400004 = true ∧ cellsReadable w1 0x400000 = true := by decide

theorem witness_DataWritesFaultOrStoreBytes :
    inWindow8 w0.params 0x3FFFFF = false ∧ inWindow8 w0.params 0x400000 = true ∧ Memory.wf w0.params w0.mem = true := by decide

theorem witness_StoreThenLoadReturnsValue : ∃ t, memWrite w0 0x40FFF8 7 = .ok t := ⟨_, rfl⟩

theorem witness_StepKeepsInvariant : Inv (at0 0x00390812) ∧ ∃ t, step (at0 0x00390812) = .next t :=
  ⟨⟨by decide, by decide, ⟨fun _ => by decide, fun h => by cases h⟩, fun _ => by decide, fun h => by cases h⟩, ⟨_, rfl⟩⟩

theorem witness_LoadMeetsInvariant : ∃ s, load .default imageP7 = .next s := ⟨_, rfl⟩

theorem witness_NoStepPlacesAnInstruction : ∃ t, step (at0 0x0200100F 7 0x400008) = .next t := ⟨_, rfl⟩

theorem witness_OnlyControlTransferWritesRip :
    isControlTransfer (.pushq (.imm 1)) = false ∧ ∃ t, exec (.pushq (.imm 1)) w0 = .next t ∧ t.runState = .running :=
  ⟨by decide, _, rfl, rfl⟩

theorem witness_OtherInstructionsLeaveFlags :
    writesFlags (.movq (.imm 1) (.ind past)) = false ∧ (∃ t, exec (.movq (.imm 1) (.ind past)) w0 = .next t) ∧
      ∃ t, exec (.movq (.imm 1) last) w0 = .next t := ⟨by decide, ⟨_, rfl⟩, ⟨_, rfl⟩⟩

/-- Two flag records on which the condition of JG agrees. -/
theorem witness_FlagsAreReadOnlyThroughConditions :
    ∀ c, conditionOf (.jg (.imm 0)) = some c → condHolds w0.params ⟨true, true, false⟩ c = condHolds w0.params w0.flags c :=
  fun _ h => by cases h; decide

theorem witness_NewFlagsDoNotDependOnOldOnes :
    writesFlags (.cmpq (.imm 1) last) = true ∧ isShift (.cmpq (.imm 1) last) = false ∧
      ∃ t, exec (.cmpq (.imm 1) last) w0 = .next t ∧ t.runState = .running := ⟨by decide, by decide, _, rfl, rfl⟩

/-- Images at the ends of the window: the text at its start, the data up to its end (T-R4). -/
theorem witness_LoadBuildsTheInitialState :
    Params.default.ok = true ∧ fitsWindow .default imageP7 = true ∧
      fitsWindow .default { imageP7 with dataPos := 0x40FFFE, data := [1, 2] } = true := by decide

/-- T-R3, and data that end one cell past the window. -/
theorem witness_LoadRefusesWhatDoesNotFit :
    Params.default.ok = true ∧ fitsWindow .default { imageP7 with textPos := 0x3FFFFC } = false ∧
      fitsWindow .default { imageP7 with dataPos := 0x40FFFE, data := [1, 2, 3] } = false := by decide

theorem witness_ResetLeavesTheSpecsValues : Reg.rax ≠ .rip ∧ 0x400000 ≤ 0x40FFF7 ∧ 0x40FFF7 < 0x40FFF8 := by decide

theorem witness_HostRunsAreBoundedSteps :
    ({ w0 with runState := .faulted } : State).runState ≠ .running ∧ w0.runState = .running ∧
      (∃ t, step (at0 0x00000814 0xFDEAD) = .next t) ∧ ({ w0 with runState := .halted } : State).runState = .halted :=
  ⟨by decide, rfl, ⟨_, rfl⟩, rfl⟩

theorem witness_DuplicateLabelsFailAssembly :
    ¬(([⟨"main", .code []⟩, ⟨"main", .data []⟩] : List Element).map Element.label).Nodup := by decide

theorem witness_AssembledImagesAreLaidOut :
    ∃ img, assemble .default "main" [⟨"main", .code [⟨.retq, []⟩]⟩, ⟨"arr", .data [.quad (.lit 10)]⟩] = .ok img := ⟨_, rfl⟩

/-- A step that completes, one that halts, and one that faults. -/
theorem witness_StatusIsReadByItsCodes :
    look (fun t => (readStatus t).state) (at0 0x00000814 0x400010) = some 0 ∧
    look (fun t => (readStatus t).state) (at0 0x00000814 0xFDEAD) = some 1 ∧
    look (fun t => (readStatus t).state) (at0 0x00000000) = some 2 := by decide

/-- Both clauses: every label defined, and the entry label or one that is referred to undefined. -/
theorem witness_ReferencesDecideAssembly :
    let prog : List Element := [⟨"main", .code [⟨.jmp, [.imm (.label "main")]⟩]⟩]
    let open1 : List Element := [⟨"main", .code [⟨.jmp, [.imm (.label "foo")]⟩]⟩]
    (prog.map Element.label).Nodup ∧ (∀ l ∈ "main" :: prog.flatMap labelsIn, l ∈ prog.map Element.label) ∧
      ¬(∀ l ∈ "start" :: prog.flatMap labelsIn, l ∈ prog.map Element.label) ∧
      (open1.map Element.label).Nodup ∧ ¬(∀ l ∈ "main" :: open1.flatMap labelsIn, l ∈ open1.map Element.label) := by
  decide

end Sys2Proof.Tests
end

section
/-! SUPPORT. The invariant is kept by every step (O42): a fault records the address of its instruction unless it is a data
fault, and an instruction that completes touches neither the parameters nor the status registers. -/

namespace Sys2Proof.Machine

open Sys2Proof.Safety

/-! ## What a fault records (spec/60_exceptions.md R160) -/

/-- R160: a fault raised with `FAULT_IP` = `pc0` and `FAULT_OPC` = `opc` is a data fault, or its address is `pc0`; one of
the address kind that is no data fault, which is a fetch fault, has no opcode. -/
def LegalRecord (e : Raised) (pc0 : Word) (opc : Byte) : Prop :=
  DataCause e.cause ∨ (e.addr = pc0 ∧ (e.cause.kind = .address → opc = 0))

theorem Cause.kind_ne_none (c : Cause) : c.kind ≠ .none := by cases c <;> decide

theorem Cause.code_legal (c : Cause) : causeLegal c.kind c.code = true := by cases c <;> decide

theorem decodeCause_kind (d : DecodeFault) : (decodeCause d).kind = .decode := by cases d <;> rfl

/-- R160: a data fault is of the address kind, with a cause code above those of the fetch faults. -/
theorem DataCause.kind_code {c : Cause} (h : DataCause c) : c.kind = .address ∧ 2 < c.code.toNat := by
  rcases h with rfl | rfl | rfl <;> decide

/-- R45: a fetch fault is about the fetch address. -/
theorem fetchCell_error_addr {s : State} {a : Word} {e : Raised} (h : fetchCell s a = .error e) : e.addr = a := by
  unfold fetchCell at h
  split at h
  · cases h; rfl
  · split at h <;> cases h
    rfl

theorem raise_statusLegal {e : Raised} {pc0 : Word} {opc : Byte} (h : LegalRecord e pc0 opc) (start : State)
    (landed : List State) : statusLegal (raise e pc0 opc start landed) := by
  refine ⟨fun hr => absurd rfl hr, fun _ => ⟨e.cause.kind_ne_none, e.cause.code_legal, ?_, ?_⟩⟩ <;> intro hk <;>
    simp only [raise_faultKind, raise_faultCause, raise_faultAddr, raise_faultIp, raise_faultOpc] at hk ⊢
  · rcases h with hd | ⟨ha, _⟩
    · simp [hd.kind_code.1] at hk
    · exact ha
  · rcases h with hd | ⟨ha, ho⟩
    · exact absurd hk.2 (Nat.not_le.mpr hd.kind_code.2)
    · exact ⟨ha, ho hk.1⟩

/-- R160: an instruction that makes `STATE` FAULTED has recorded a malformed-operand fault at its own address or a data
fault. -/
theorem exec_faulted_statusLegal {i : Instr} {s t : State} (hr : s.runState ≠ .faulted) (h : exec i s = .next t)
    (ht : t.runState = .faulted) : statusLegal t := by
  rw [exec_eq] at h
  rcases execute_cases i s (bodyOf i s) with ⟨c, hc, hx⟩ | ⟨_, u, hb, hx⟩ | ⟨hc, e, hb, hx⟩ <;>
    obtain rfl := Host.Outcome.next.inj (hx.symm.trans h)
  · have hk : c.kind = .malformed := checkOperands_kind hc
    exact raise_statusLegal (.inr ⟨rfl, by simp [hk]⟩) _ _
  · obtain ⟨_, hu, _⟩ := (bodyOf_touched hb).status
    exact absurd (hu.symm.trans ht) hr
  · exact raise_statusLegal (.inl (bodyOf_raised ((checkShape_none_iff i).mp hc) hb)) _ _

/-- R160, R162: a step that faults does so in its fetch, its decoding or its instruction, and records it legally. -/
theorem step_faulted_statusLegal {s t : State} (h : step s = .next t) (ht : t.runState = .faulted) : statusLegal t := by
  have hr : s.runState = .running := (step_cases h).1
  have hs : step s = runningStep s := by rw [step, hr]
  cases hw : fetchCell s (s.reg .rip) with
  | error e =>
    rw [hs, runningStep, hw] at h
    cases h
    exact raise_statusLegal (.inr ⟨fetchCell_error_addr hw, fun _ => rfl⟩) _ _
  | ok w =>
    cases hd : decode w with
    | error d =>
      simp only [hs, runningStep, hw, hd] at h
      cases h
      exact raise_statusLegal (.inr ⟨rfl, by simp [decodeCause_kind]⟩) _ _
    | ok i =>
      obtain ⟨u, hu, hst⟩ := step_of_decode hr hw hd
      obtain rfl := Host.Outcome.next.inj (hst.symm.trans h)
      rcases haltTest_cases u with ⟨_, _, he⟩ | ⟨_, he⟩
      · rw [he] at ht; cases ht
      · rw [he] at ht ⊢
        exact exec_faulted_statusLegal (by simp [hr]) hu ht

/-! ## What a step keeps -/

/-- A fault keeps the parameters and memory that every state of the faulting step has in common (R161). -/
theorem raise_params_mem (e : Raised) (pc0 : Word) (opc : Byte) {s : State} {landed : List State}
    (h : ∀ u ∈ landed, u.params = s.params ∧ u.mem = s.mem) :
    (raise e pc0 opc s landed).params = s.params ∧ (raise e pc0 opc s landed).mem = s.mem := by
  rw [raise_params, raise_mem]
  rcases List.mem_cons.mp (faultBase_mem s landed) with hb | hb
  · rw [hb]; exact ⟨rfl, rfl⟩
  · exact h _ hb

/-- A step that faults keeps the invariant. -/
theorem step_fault_inv {s : State} {e : Raised} {opc : Byte} {landed : List State} (hi : Inv s)
    (h : step s = .next (raise e (s.reg .rip) opc s landed))
    (hl : ∀ u ∈ landed, u = s.advance ∨ u = s.advance.setReg .rsp (s.reg .rsp - 8)) :
    Inv (raise e (s.reg .rip) opc s landed) := by
  obtain ⟨hok, hwf, _⟩ := hi
  obtain ⟨hp, hm⟩ := raise_params_mem e (s.reg .rip) opc (s := s) (landed := landed) fun u hu => by
    rcases hl u hu with rfl | rfl <;> exact ⟨rfl, rfl⟩
  exact ⟨by rw [hp, hok], by rw [hp, hm, hwf], step_faulted_statusLegal h rfl, nofun, nofun⟩

/-- R81: the halt test of a running machine makes `STATE` agree with `rip`, so the invariant holds after it. -/
theorem haltTest_inv {u : State} (hr : u.runState = .running) (hok : u.params.ok = true)
    (hwf : Memory.wf u.params u.mem = true) (hst : statusLegal u) : Inv (haltTest u) := by
  have hzero := hst.1 (by simp [hr])
  refine ⟨by simpa using hok, by simpa using hwf, ?_⟩
  rcases haltTest_cases u with ⟨_, hrip, he⟩ | ⟨hrip, he⟩ <;> rw [he]
  · exact ⟨⟨fun _ => hzero, nofun⟩, nofun, fun _ => hrip⟩
  · exact ⟨hst, fun _ ha => hrip ⟨hr, ha⟩, fun hh => by simp [hr] at hh⟩

/-- The writes of an instruction leave the status registers legal. -/
theorem Touched.statusLegal {s u : State} (h : Touched s u) (hs : Safety.statusLegal s) : Safety.statusLegal u := by
  obtain ⟨_, hr, hk, hc, ha, hip, ho, _⟩ := h.status
  simpa only [Safety.statusLegal, hr, hk, hc, ha, hip, ho] using hs

/-- An instruction that completes, and the halt test after it, keep the invariant. -/
theorem step_completed_inv {s u : State} (hi : Inv s) (hr : s.runState = .running) (hu : Touched s.advance u) :
    Inv (haltTest u) := by
  obtain ⟨hok, hwf, hst, _⟩ := hi
  obtain ⟨hp, hru, _⟩ := hu.status
  exact haltTest_inv (hru.trans hr) (by rw [hp, State.advance_params, hok]) (hu.wf hwf) (hu.statusLegal hst)

/-- Settles O42: a step either takes one fault, which keeps parameters and memory and records itself as R160 says, or
completes an instruction, whose writes keep parameters, canonical form and status, and then tests for the halt. -/
theorem stepKeepsInvariant : Obligations.StepKeepsInvariant := by
  unfold Obligations.StepKeepsInvariant
  intro s t hi h
  obtain ⟨hr, ⟨e, opc, landed, rfl, hl⟩ | ⟨w, i, u, _, _, _, hb, rfl⟩⟩ := step_cases h
  · exact step_fault_inv hi h hl
  · exact step_completed_inv hi hr (bodyOf_touched hb)

end Sys2Proof.Machine
end

section
/-! SUPPORT. What a step and a load leave of the machine state: the cells a step changes (O44), the invariant and the values
after a load and after reset (O43, O41, O51), and the status registers as the host reads them (O57). -/

namespace Sys2Proof.Machine

open Sys2Proof.Safety

/-! ## The cells a step changes (spec/10_state.md R28) -/

/-- R161: a fault keeps the cells that every state of the faulting step has in common. -/
theorem raise_cell (e : Raised) (pc0 : Word) (opc : Byte) {s : State} {landed : List State}
    (h : ∀ u ∈ landed, u.params = s.params ∧ u.mem = s.mem) (a : Nat) :
    (raise e pc0 opc s landed).cell a = s.cell a := by
  obtain ⟨hp, hm⟩ := raise_params_mem e pc0 opc h
  rw [State.cell, State.cell, hp, hm]

/-- Settles O44: a step that faults changes no cell, and the cells that a completed instruction changes are those of words it
stored, which are raw bytes. -/
theorem noStepPlacesAnInstruction : Obligations.NoStepPlacesAnInstruction := by
  unfold Obligations.NoStepPlacesAnInstruction
  intro s t h a
  obtain ⟨_, ⟨e, opc, landed, rfl, hl⟩ | ⟨w, i, u, _, _, _, hb, rfl⟩⟩ := step_cases h
  · have same : ∀ u ∈ landed, u.params = s.params ∧ u.mem = s.mem := fun u hu => by
      rcases hl u hu with rfl | rfl <;> exact ⟨rfl, rfl⟩
    exact .inl (raise_cell e _ opc same a)
  · rw [haltTest_cell, ← State.advance_cell s]
    exact (bodyOf_touched hb).cell a

/-! ## The state a load builds (spec/10_state.md R31, spec/70_reset_and_hazards.md R181) -/

theorem State.initial_reg (p : Params) (entry : Word) (r : Reg) :
    (State.initial p entry).reg r =
      if r = .rip then entry else if r = .rsp then BitVec.ofNat 64 (p.memTop - 8) else 0 := by
  cases r <;> rfl

theorem State.initial_cell (p : Params) (entry : Word) (a : Nat) : (State.initial p entry).cell a = resetCell p a := rfl

/-- R181: a cell below the sentinel word is zero after a load of nothing. -/
theorem resetCell_below_sentinel {p : Params} {a : Nat} (h : a < p.memTop - 8) : resetCell p a = .byte 0 :=
  if_neg fun ha => Nat.not_le.mpr h ha.1

/-- R181: what holds of the machine while a load with parameters `p` fills the window, before its halt test. -/
structure Filling (p : Params) (s : State) : Prop where
  params : s.params = p
  running : s.runState = .running
  wf : Memory.wf p s.mem = true
  legal : statusLegal s

theorem Filling.initial (p : Params) (entry : Word) : Filling p (State.initial p entry) :=
  ⟨rfl, rfl, Memory.wf_nil p, fun _ => ⟨rfl, rfl, rfl, rfl, rfl⟩, nofun⟩

/-- Writing a segment inside the window. -/
theorem Filling.setCells {p : Params} {s : State} (h : Filling p s) {a : Nat} {cs : List SymByte}
    (h0 : p.memBot ≤ a) (h1 : a + cs.length ≤ p.memTop) : Filling p (s.setCells a cs) := by
  obtain ⟨rfl, hr, hwf, hst⟩ := h
  exact ⟨by simp, by simpa using hr, State.setCells_wf hwf h0 h1, by simpa [statusLegal] using hst⟩

/-- R81: the halt test that ends a load. -/
theorem Filling.haltTest_inv {p : Params} {s : State} (h : Filling p s) (hok : p.ok = true) : Inv (haltTest s) := by
  obtain ⟨rfl, hr, hwf, hst⟩ := h
  exact Machine.haltTest_inv hr hok hwf hst

/-- R181: parameters that meet R6 leave room for the sentinel word at the end of the window. -/
theorem Params.sentinel_fits {p : Params} (h : p.ok = true) :
    p.memBot ≤ p.memTop - 8 ∧ p.memTop - 8 + 8 ≤ p.memTop := by
  simp only [Params.ok, Bool.and_eq_true, decide_eq_true_eq] at h
  obtain ⟨⟨⟨_, hsize⟩, _⟩, _⟩ := h
  simp only [Params.memTop]
  omega

@[simp] theorem sentinelCells_length (p : Params) : (sentinelCells p).length = 8 := by simp [sentinelCells]

/-- R184: an image fits when each of its segments lies in the window. -/
theorem fitsWindow_iff (p : Params) (img : Image) :
    fitsWindow p img = true ↔
      (p.memBot ≤ img.textPos.toNat ∧ img.textPos.toNat + img.textCells.length ≤ p.memTop) ∧
        p.memBot ≤ img.dataPos.toNat ∧ img.dataPos.toNat + img.dataCells.length ≤ p.memTop := by
  simp only [fitsWindow, Bool.and_eq_true, decide_eq_true_eq, and_assoc]

/-- R181: a load writes the text, the data and the sentinel word into the window and then tests for the halt. -/
theorem loaded_inv {p : Params} {img : Image} (hok : p.ok = true) (hfit : fitsWindow p img = true) : Inv (loaded p img) := by
  obtain ⟨⟨htext, htext'⟩, hdata, hdata'⟩ := (fitsWindow_iff p img).mp hfit
  obtain ⟨hsent, hsent'⟩ := Params.sentinel_fits hok
  have filled := ((Filling.initial p img.entry).setCells htext htext').setCells hdata hdata'
  exact (filled.setCells hsent (by simpa using hsent')).haltTest_inv hok

/-- Settles O43: a load that is not refused has parameters that meet R6 and an image that fits. -/
theorem loadMeetsInvariant : Obligations.LoadMeetsInvariant := by
  unfold Obligations.LoadMeetsInvariant
  intro p img s h
  rcases load_cases p img with ⟨hok, hfit, hl⟩ | ⟨_, _, hl⟩ | ⟨_, hl⟩ <;> rw [hl] at h <;> cases h
  exact loaded_inv hok hfit

/-! ## The reset state -/

/-- The reset state has `rip` = `MEM_BOT`, which is not the sentinel (log entries 2 and 3). -/
theorem haltTest_reset : haltTest State.reset = State.reset := by
  rcases haltTest_cases State.reset with ⟨_, hrip, _⟩ | ⟨_, h⟩
  · exact absurd hrip (by decide)
  · exact h

/-- Settles O41: the reset state is that of a load before any segment is written, and the halt test leaves it as it is. -/
theorem resetMeetsInvariant : Obligations.ResetMeetsInvariant := by
  unfold Obligations.ResetMeetsInvariant
  rw [← haltTest_reset]
  exact (Filling.initial _ _).haltTest_inv (by decide)

/-- Settles O51: the registers and cells that a load begins with, at the default parameters. -/
theorem resetLeavesTheSpecsValues : Obligations.ResetLeavesTheSpecsValues := by
  unfold Obligations.ResetLeavesTheSpecsValues
  refine ⟨fun r hr => ?_, rfl, rfl, rfl, rfl, rfl, rfl, rfl, fun a _ ha => ?_, by decide⟩
  · rw [State.reset, State.initial_reg, if_neg hr]; rfl
  · rw [State.reset, State.initial_cell]
    exact resetCell_below_sentinel ha

/-! ## The status registers as the host reads them (spec/10_state.md R29, spec/60_exceptions.md R160) -/

theorem RunState.code_inj (r q : RunState) : r.code = q.code ↔ r = q := by cases r <;> cases q <;> decide

theorem FaultKind.code_inj (k l : FaultKind) : k.code = l.code ↔ k = l := by cases k <;> cases l <;> decide

/-- R160, R161: after a fault READ_STATUS gives `STATE` = 2, a kind that is not none, and the fault's `FAULT_IP`. -/
theorem readStatus_raise (e : Raised) (pc0 : Word) (opc : Byte) (start : State) (landed : List State) :
    (readStatus (raise e pc0 opc start landed)).state = 2 ∧
      (readStatus (raise e pc0 opc start landed)).faultKind ≠ 0 ∧
      (readStatus (raise e pc0 opc start landed)).faultIp = pc0 :=
  ⟨rfl, fun h => e.cause.kind_ne_none ((FaultKind.code_inj _ .none).mp h), rfl⟩

/-- The halt test of a running machine raises no fault. -/
theorem readStatus_haltTest_state_ne {u : State} (hr : u.runState = .running) : (readStatus (haltTest u)).state ≠ 2 := by
  intro h
  have hf : (haltTest u).runState = .faulted := (RunState.code_inj _ .faulted).mp h
  rw [haltTest_runState_of_running hr] at hf
  split at hf <;> cases hf

/-- An instruction that completes, and the halt test after it, leave the five fault registers as READ_STATUS gave them. -/
theorem readStatus_completed {s u : State} (h : Touched s.advance u) :
    readStatus (haltTest u) = { readStatus s with state := (readStatus (haltTest u)).state } := by
  obtain ⟨_, _, hk, hc, ha, hip, ho, _⟩ := h.status
  simp [readStatus, hk, hc, ha, hip, ho]

/-- Settles O57: the codes are distinct, a fault records a kind and its `FAULT_IP`, and a step that completes leaves the fault
registers. -/
theorem statusIsReadByItsCodes : Obligations.StatusIsReadByItsCodes := by
  unfold Obligations.StatusIsReadByItsCodes
  refine ⟨fun s => ?_, fun s t h => ?_⟩
  · have state := RunState.code_inj s.runState
    have kind := FaultKind.code_inj s.faultKind
    exact ⟨state .running, state .halted, state .faulted, kind .none, kind .address, kind .decode, kind .malformed,
      rfl, rfl, rfl, rfl, rfl⟩
  · obtain ⟨hr, ⟨e, opc, landed, rfl, _⟩ | ⟨w, i, u, _, _, _, hb, rfl⟩⟩ := step_cases h
    · obtain ⟨hstate, hkind, hip⟩ := readStatus_raise e (s.reg .rip) opc s landed
      exact ⟨fun _ => ⟨hkind, hip⟩, fun hne => absurd hstate hne⟩
    · have hu := bodyOf_touched hb
      obtain ⟨_, hru, _⟩ := hu.status
      exact ⟨fun h2 => absurd h2 (readStatus_haltTest_state_ne (hru.trans hr)), fun _ => readStatus_completed hu⟩

end Sys2Proof.Machine
end

section
/-! SUPPORT. Only a control transfer writes `rip` (O45): the destination of a well-formed instruction names no `rip`. -/

namespace Sys2Proof.Machine

open Sys2Proof.Safety

/-! ## What a write of `Execute` keeps of `rip` (spec/10_state.md R23) -/

theorem memWrite_reg {s t : State} {a v : Word} (h : memWrite s a v = .ok t) (r : Reg) : t.reg r = s.reg r := by
  obtain ⟨_, rfl⟩ := memWrite_ok h
  exact State.setCells_reg _ _ _ _

theorem writing_rip {s t : State} {dst : Operand} {v : Word} (hd : dst.destination = true)
    (h : writing s dst v = .ok t) : t.reg .rip = s.reg .rip := by
  cases dst with
  | imm i => cases hd
  | reg r =>
    have hr : Reg.rip ≠ r := by rintro rfl; cases hd
    cases h
    rw [State.setReg_reg, if_neg hr]
  | ind m =>
    unfold writing at h
    split at h
    · next hw => cases h; exact memWrite_reg hw _
    · cases h

theorem writingFlags_rip {s t : State} {dst : Operand} {v : Word} {f : Flags} (hd : dst.destination = true)
    (h : writingFlags s dst v f = .ok t) : t.reg .rip = s.reg .rip := by
  unfold writingFlags at h
  split at h
  · next hw => cases h; rw [State.setFlags_reg, writing_rip hd hw]
  · cases h

theorem modify1_rip {s t : State} {dst : Operand} {f : Word → Word × Flags} (hd : dst.destination = true)
    (h : modify1 s dst f = .ok t) : t.reg .rip = s.reg .rip := by
  obtain ⟨_, _, h⟩ := reading_eq_ok h
  exact writingFlags_rip hd h

theorem modify2_rip {s t : State} {src dst : Operand} {f : Word → Word → Word × Flags} (hd : dst.destination = true)
    (h : modify2 s src dst f = .ok t) : t.reg .rip = s.reg .rip := by
  obtain ⟨_, _, h⟩ := reading_eq_ok h
  exact modify1_rip hd h

theorem setOnCond_rip {s t : State} {c : Cond} {dst : Operand} (hd : dst.destination = true)
    (h : setOnCond s c dst = .ok t) : t.reg .rip = s.reg .rip := by
  obtain ⟨_, _, h⟩ := reading_eq_ok h
  exact writing_rip hd h

theorem pushWord_rip {s t : State} {v : Word} (h : pushWord s v = .ok t) : t.reg .rip = s.reg .rip := by
  unfold pushWord at h
  dsimp only at h
  split at h
  · next hw => cases h; rw [memWrite_reg hw, State.setReg_reg, if_neg (by decide)]
  · cases h

theorem popInto_rip {s t : State} {dst : Operand} (hd : dst.destination = true) (h : popInto s dst = .ok t) :
    t.reg .rip = s.reg .rip := by
  obtain ⟨_, _, h⟩ := readingStack_eq_ok h
  split at h
  · next hw => cases h; rw [releaseWord, State.setReg_reg, if_neg (by decide), writing_rip hd hw]
  · cases h

/-- R23: a well-formed instruction that is no control transfer and completes leaves `rip`. -/
theorem bodyOf_rip {i : Instr} {s t : State} (hwf : i.wellFormed = true) (hc : isControlTransfer i = false)
    (h : bodyOf i s = .ok t) : t.reg .rip = s.reg .rip := by
  cases i <;> dsimp only [bodyOf] at h <;> simp only [Instr.wellFormed, Bool.and_eq_true] at hwf
  case incq | decq | negq | notq => exact modify1_rip hwf h
  case addq | subq | imulq | andq | orq | xorq | sarq | shlq | shrq => exact modify2_rip hwf.2 h
  case sete | setne | setg | setge | setl | setle => exact setOnCond_rip hwf h
  case jmp | callq | retq | je | jne | jg | jge | jl | jle => cases hc
  case cmpq =>
    obtain ⟨_, _, h⟩ := reading_eq_ok h
    obtain ⟨_, _, h⟩ := reading_eq_ok h
    cases h; rfl
  case movq =>
    obtain ⟨_, _, h⟩ := reading_eq_ok h
    exact writing_rip hwf.2 h
  case leaq mem dst =>
    cases mem with
    | ind m => exact writing_rip hwf.2 h
    | imm | reg => cases h
  case pushq =>
    obtain ⟨_, _, h⟩ := reading_eq_ok h
    exact pushWord_rip h
  case popq => exact popInto_rip hwf h

/-- An instruction that leaves the machine running has a legal shape and has completed. -/
theorem exec_running {i : Instr} {s t : State} (h : exec i s = .next t) (ht : t.runState = .running) :
    i.wellFormed = true ∧ bodyOf i s = .ok t := by
  rw [exec_eq] at h
  rcases execute_cases i s (bodyOf i s) with ⟨_, _, hx⟩ | ⟨hc, u, hb, hx⟩ | ⟨_, _, _, hx⟩ <;>
    obtain rfl := Host.Outcome.next.inj (hx.symm.trans h)
  · cases ht
  · exact ⟨(checkShape_none_iff i).mp hc, hb⟩
  · cases ht

/-- Settles O45: an instruction that completes is well formed, so that its destination is not `rip`. -/
theorem onlyControlTransferWritesRip : Obligations.OnlyControlTransferWritesRip := by
  unfold Obligations.OnlyControlTransferWritesRip
  intro i s t hc h ht
  obtain ⟨hwf, hb⟩ := exec_running h ht
  exact bodyOf_rip hwf hc hb

end Sys2Proof.Machine
end

section
/-! SUPPORT. How `Execute` depends on the flags (O46 to O48): of two states that differ in the flags alone, an instruction that
writes no flag makes the same but for the flags, and one that writes them, other than a shift, makes the very same. -/

namespace Sys2Proof.Machine

open Sys2Proof.Safety

/-! ## Overwriting the flags, and the operations of the machine -/

@[simp] theorem State.setFlags_setFlags (s : State) (f g : Flags) : (s.setFlags f).setFlags g = s.setFlags g := rfl
@[simp] theorem State.setFlags_self (s : State) : s.setFlags s.flags = s := rfl
@[simp] theorem State.setFlags_ea (s : State) (f : Flags) (m : Indirect) : (s.setFlags f).ea m = s.ea m := by
  cases m <;> rfl
@[simp] theorem State.setFlags_pc0 (s : State) (f : Flags) : (s.setFlags f).pc0 = s.pc0 := rfl

theorem State.setFlags_setReg (s : State) (f : Flags) (r : Reg) (v : Word) :
    (s.setFlags f).setReg r v = (s.setReg r v).setFlags f := rfl

theorem State.setFlags_setCells (s : State) (f : Flags) (a : Nat) (cs : List SymByte) :
    (s.setFlags f).setCells a cs = (s.setCells a cs).setFlags f := by
  induction cs generalizing s a with
  | nil => rfl
  | cons c rest ih => exact ih (s.setCell a c) (a + 1)

@[simp] theorem memRead_setFlags (s : State) (f : Flags) (a : Word) : memRead (s.setFlags f) a = memRead s a := rfl

@[simp] theorem readOp_setFlags (s : State) (f : Flags) (op : Operand) : readOp (s.setFlags f) op = readOp s op := by
  cases op with
  | imm i => rfl
  | reg r => rfl
  | ind m => rw [readOp_ind, readOp_ind, memRead_setFlags, State.setFlags_ea]

theorem memWrite_setFlags (s : State) (f : Flags) (a v : Word) :
    memWrite (s.setFlags f) a v = (memWrite s a v).map (·.setFlags f) := by
  unfold memWrite
  rw [State.setFlags_params, State.setFlags_setCells]
  split <;> rfl

theorem writeOp_setFlags (s : State) (f : Flags) (op : Operand) (v : Word) :
    writeOp (s.setFlags f) op v = (writeOp s op v).map (·.setFlags f) := by
  cases op with
  | imm i => rfl
  | reg r => rfl
  | ind m => rw [writeOp_ind, writeOp_ind, State.setFlags_ea, memWrite_setFlags]

/-! ## What `Execute` makes, with the flags overwritten -/

/-- What an `Execute` answers, with `f` for the flags in every state it holds. -/
def withFlags (f : Flags) : Except Stop State → Except Stop State
  | .ok t => .ok (t.setFlags f)
  | .error e => .error ⟨e.raised, e.landed.map (·.setFlags f)⟩

@[simp] theorem withFlags_ok (f : Flags) (t : State) : withFlags f (.ok t) = .ok (t.setFlags f) := rfl

@[simp] theorem withFlags_withFlags (f : Flags) (x : Except Stop State) : withFlags f (withFlags f x) = withFlags f x := by
  cases x <;> simp [withFlags]

@[simp] theorem reading_setFlags (s : State) (f : Flags) (op : Operand) (k : Word → Except Stop State) :
    reading (s.setFlags f) op k = reading s op k := by rw [reading, readOp_setFlags, reading]

@[simp] theorem withFlags_reading (f : Flags) (s : State) (op : Operand) (k : Word → Except Stop State) :
    withFlags f (reading s op k) = reading s op fun v => withFlags f (k v) := by
  unfold reading
  split <;> rfl

@[simp] theorem readingStack_setFlags (s : State) (f : Flags) (k : Word → Except Stop State) :
    readingStack (s.setFlags f) k = readingStack s k := rfl

@[simp] theorem withFlags_readingStack (f : Flags) (s : State) (k : Word → Except Stop State) :
    withFlags f (readingStack s k) = readingStack s fun v => withFlags f (k v) := by
  unfold readingStack
  split <;> rfl

@[simp] theorem writing_setFlags (s : State) (f : Flags) (op : Operand) (v : Word) :
    writing (s.setFlags f) op v = withFlags f (writing s op v) := by
  rw [writing, writeOp_setFlags, writing]
  cases writeOp s op v <;> rfl

@[simp] theorem pushWord_setFlags (s : State) (f : Flags) (v : Word) :
    pushWord (s.setFlags f) v = withFlags f (pushWord s v) := by
  unfold pushWord
  dsimp only
  rw [State.setFlags_reg, State.setFlags_setReg, memWrite_setFlags, State.setFlags_reg]
  cases memWrite (s.setReg .rsp (s.reg .rsp - 8)) ((s.setReg .rsp (s.reg .rsp - 8)).reg .rsp) v <;> rfl

theorem popInto_setFlags (s : State) (f : Flags) (dst : Operand) :
    popInto (s.setFlags f) dst = withFlags f (popInto s dst) := by
  simp only [popInto, readingStack_setFlags, withFlags_readingStack, writing_setFlags]
  congr 1; funext v
  cases writing s dst v <;> rfl

@[simp] theorem callTo_setFlags (s : State) (f : Flags) (target : Word) :
    callTo (s.setFlags f) target = withFlags f (callTo s target) := by
  rw [callTo, State.setFlags_reg, pushWord_setFlags, callTo]
  cases pushWord s (s.reg .rip) <;> rfl

theorem loadAddress_setFlags (s : State) (f : Flags) (mem dst : Operand) :
    loadAddress (s.setFlags f) mem dst = withFlags f (loadAddress s mem dst) := by
  cases mem with
  | ind m => simp only [loadAddress, State.setFlags_ea, writing_setFlags]
  | imm | reg => rfl

/-- R133: SETcc reads the flags through its condition alone. -/
theorem setOnCond_setFlags {s : State} {f : Flags} {c : Cond} (h : condHolds s.params f c = condHolds s.params s.flags c)
    (dst : Operand) : setOnCond (s.setFlags f) c dst = withFlags f (setOnCond s c dst) := by
  have hcond : (s.setFlags f).cond c = s.cond c := h
  simp only [setOnCond, reading_setFlags, withFlags_reading, writing_setFlags, hcond]

/-- R145: Jcc reads the flags through its condition alone. -/
theorem jumpOnCond_setFlags {s : State} {f : Flags} {c : Cond} (h : condHolds s.params f c = condHolds s.params s.flags c)
    (tgt : Operand) : jumpOnCond (s.setFlags f) c tgt = withFlags f (jumpOnCond s c tgt) := by
  have hcond : (s.setFlags f).cond c = s.cond c := h
  simp only [jumpOnCond, reading_setFlags, withFlags_reading, withFlags_ok, hcond]
  congr 1; funext t
  split <;> rfl

/-- R91: flags written last overwrite those before; an `Execute` that faults has written nothing. -/
@[simp] theorem writingFlags_setFlags (s : State) (f : Flags) (op : Operand) (v : Word) (g : Flags) :
    writingFlags (s.setFlags f) op v g = writingFlags s op v g := by
  rw [writingFlags, writing_setFlags, writingFlags]
  cases h : writing s op v with
  | ok t => rfl
  | error e =>
    unfold writing at h
    split at h <;> cases h
    rfl

@[simp] theorem modify1_setFlags (s : State) (f : Flags) (dst : Operand) (h : Word → Word × Flags) :
    modify1 (s.setFlags f) dst h = modify1 s dst h := by simp [modify1]

@[simp] theorem modify2_setFlags (s : State) (f : Flags) (src dst : Operand) (h : Word → Word → Word × Flags) :
    modify2 (s.setFlags f) src dst h = modify2 s src dst h := by simp [modify2]

/-! ## The `Execute` of an instruction from two flag records -/

/-- R24, R25: an instruction that writes no flag does the same whatever the flags are, if its condition is the same. -/
theorem bodyOf_setFlags_of_no_write {i : Instr} {s : State} {f : Flags} (hw : writesFlags i = false)
    (hc : ∀ c, conditionOf i = some c → condHolds s.params f c = condHolds s.params s.flags c) :
    bodyOf i (s.setFlags f) = withFlags f (bodyOf i s) := by
  cases i <;> dsimp only [bodyOf]
  case incq | decq | negq | addq | subq | imulq | cmpq => cases hw
  case notq | andq | orq | xorq | sarq | shlq | shrq => cases hw
  case movq => simp
  case leaq => exact loadAddress_setFlags _ _ _ _
  case sete | setne | setg | setge | setl | setle => exact setOnCond_setFlags (hc _ rfl) _
  case pushq => simp
  case popq => exact popInto_setFlags _ _ _
  case jmp => simp only [reading_setFlags, withFlags_reading]; rfl
  case callq => simp
  case retq => simp only [readingStack_setFlags, withFlags_readingStack]; rfl
  case je | jne | jg | jge | jl | jle => exact jumpOnCond_setFlags (hc _ rfl) _

/-- R91: an instruction that writes the flags, other than a shift, does the very same whatever the flags were. -/
theorem bodyOf_setFlags_of_write {i : Instr} (s : State) (f : Flags) (hw : writesFlags i = true)
    (hs : isShift i = false) : bodyOf i (s.setFlags f) = bodyOf i s := by
  cases i <;> dsimp only [bodyOf]
  case incq | decq | negq | notq => exact modify1_setFlags _ _ _ _
  case addq | subq | imulq | andq | orq | xorq => exact modify2_setFlags _ _ _ _ _
  case sarq | shlq | shrq => cases hs
  case cmpq => simp
  all_goals cases hw

/-- With the flags overwritten, it is all one which flags an `Execute` had written. -/
theorem withFlags_writingFlags (f g g' : Flags) (s : State) (op : Operand) (v : Word) :
    withFlags f (writingFlags s op v g) = withFlags f (writingFlags s op v g') := by
  unfold writingFlags
  cases writing s op v <;> rfl

/-- R124: the result of a shift does not depend on the flags before, which only decide the flags it leaves. -/
theorem withFlags_shift (f g g' : Flags) (op : ShiftOp) (s : State) (amt dst : Operand) :
    withFlags f (modify2 s amt dst fun d v => shiftResult op d v g) =
      withFlags f (modify2 s amt dst fun d v => shiftResult op d v g') := by
  simp only [modify2, withFlags_reading]
  congr 1; funext v; congr 1; funext d
  exact withFlags_writingFlags _ _ _ _ _ _

/-- R25, R124: a shift does the same whatever the flags were, but for the flags it leaves. -/
theorem withFlags_bodyOf_setFlags_of_shift {i : Instr} (s : State) (f : Flags) (hs : isShift i = true) :
    withFlags f (bodyOf i (s.setFlags f)) = withFlags f (bodyOf i s) := by
  cases i <;> dsimp only [bodyOf]
  case sarq | shlq | shrq => rw [modify2_setFlags]; exact withFlags_shift _ _ _ _ _ _ _
  all_goals cases hs

/-- R25: with the flags it leaves overwritten, every instruction does the same from two flag records on which its condition
agrees. -/
theorem withFlags_bodyOf_setFlags {i : Instr} {s : State} {f : Flags}
    (hc : ∀ c, conditionOf i = some c → condHolds s.params f c = condHolds s.params s.flags c) :
    withFlags f (bodyOf i (s.setFlags f)) = withFlags f (bodyOf i s) := by
  cases hw : writesFlags i with
  | false => rw [bodyOf_setFlags_of_no_write hw hc, withFlags_withFlags]
  | true =>
    cases hs : isShift i with
    | false => rw [bodyOf_setFlags_of_write s f hw hs]
    | true => exact withFlags_bodyOf_setFlags_of_shift s f hs

/-! ## The instruction as a whole -/

/-- R161: how many of the writes a fault leaves does not depend on the flags (log entry 7). -/
theorem raise_setFlags (e : Raised) (pc0 : Word) (opc : Byte) (start : State) (landed : List State) (f : Flags) :
    raise e pc0 opc (start.setFlags f) (landed.map (·.setFlags f)) = (raise e pc0 opc start landed).setFlags f := by
  have base : faultBase (start.setFlags f) (landed.map (·.setFlags f)) = (faultBase start landed).setFlags f := by
    simp only [faultBase, List.length_map, State.setFlags_freeDraws]
    exact List.getD_map (l := start :: landed) start (·.setFlags f)
  rw [raise, base]
  rfl

/-- The outcome of an instruction with the flags overwritten is decided by what its `Execute` makes with the flags
overwritten. -/
theorem execute_setFlags {i : Instr} {s : State} {f : Flags} {x y : Except Stop State}
    (h : withFlags f y = withFlags f x) :
    ∃ t u, execute i s x = .next t ∧ execute i (s.setFlags f) y = .next u ∧ u.setFlags f = t.setFlags f := by
  cases hc : checkShape i with
  | some c =>
    refine ⟨_, _, execute_shape x hc, execute_shape y hc, ?_⟩
    rw [← raise_setFlags, ← raise_setFlags]
    rfl
  | none =>
    cases x with
    | ok t =>
      cases y with
      | ok u => exact ⟨t, u, execute_ok hc rfl, execute_ok hc rfl, Except.ok.inj h⟩
      | error e => cases h
    | error d =>
      cases y with
      | ok u => cases h
      | error e =>
        obtain ⟨hr, hl⟩ := Stop.mk.inj (Except.error.inj h)
        refine ⟨_, _, execute_error hc rfl, execute_error hc rfl, ?_⟩
        rw [← raise_setFlags, ← raise_setFlags, List.map_cons, List.map_cons, hl, hr]
        rfl

/-- Settles O47: with the flags overwritten, the two runs end in one state. -/
theorem flagsAreReadOnlyThroughConditions : Obligations.FlagsAreReadOnlyThroughConditions := by
  unfold Obligations.FlagsAreReadOnlyThroughConditions
  intro i s f hc
  obtain ⟨t, u, ht, hu, h⟩ := execute_setFlags (i := i) (s := s) (withFlags_bodyOf_setFlags hc)
  have field {α : Type} (g : State → α) : g (u.setFlags f) = g (t.setFlags f) := congrArg g h
  exact ⟨t, u, (exec_eq _ _).trans ht, (exec_eq _ _).trans hu, field State.regs, field State.mem, field State.params,
    field State.runState, field State.faultKind, field State.faultCause, field State.faultAddr, field State.faultIp,
    field State.faultOpc, field State.freeDraws⟩

/-- Settles O48: such an instruction makes the very same state of both flag records. -/
theorem newFlagsDoNotDependOnOldOnes : Obligations.NewFlagsDoNotDependOnOldOnes := by
  unfold Obligations.NewFlagsDoNotDependOnOldOnes
  intro i s t f hw hs h ht
  obtain ⟨hwf, hb⟩ := exec_running h ht
  exact ⟨t, exec_ok hwf ((bodyOf_setFlags_of_write s f hw hs).trans hb), rfl⟩

/-- R24: an instruction that writes no flag and completes leaves the flags. -/
theorem bodyOf_flags {i : Instr} {s t : State} (hw : writesFlags i = false) (h : bodyOf i s = .ok t) :
    t.flags = s.flags := by
  have same := bodyOf_setFlags_of_no_write (s := s) (f := s.flags) hw fun _ _ => rfl
  rw [State.setFlags_self, h, withFlags_ok] at same
  have ht : t = t.setFlags s.flags := Except.ok.inj same
  rw [ht, State.setFlags_flags]

/-- R24, R161: a fault of an instruction leaves the flags of the start of the step. -/
theorem raise_flags_of_landed (e : Raised) (pc0 : Word) (opc : Byte) {s : State} {landed : List State}
    (h : ∀ u ∈ landed, u.flags = s.flags) : (raise e pc0 opc s landed).flags = s.flags := by
  rw [raise_flags]
  rcases List.mem_cons.mp (faultBase_mem s landed) with hb | hb
  · rw [hb]
  · exact h _ hb

/-- Settles O46: the writes that such an instruction has made, complete or not, are none of the flags. -/
theorem otherInstructionsLeaveFlags : Obligations.OtherInstructionsLeaveFlags := by
  unfold Obligations.OtherInstructionsLeaveFlags
  intro i s t hw h
  rw [exec_eq] at h
  rcases execute_cases i s (bodyOf i s) with ⟨c, _, hx⟩ | ⟨_, u, hb, hx⟩ | ⟨_, e, hb, hx⟩ <;>
    obtain rfl := Host.Outcome.next.inj (hx.symm.trans h)
  · exact raise_flags_of_landed _ _ _ (s := s.stepStart) (by simp)
  · exact bodyOf_flags hw hb
  · refine raise_flags_of_landed _ _ _ (s := s.stepStart) ?_
    rcases bodyOf_landed hb with hl | hl <;> simp [hl]

end Sys2Proof.Machine
end

section
/-! SUPPORT. The memory (spec/20_memory.md): the address decoder (O36), the validation unit (O37), the 8-byte accesses (O38 to
O40) and the fetch (O7). -/

namespace Sys2Proof.Machine

open Sys2Proof.Safety

/-! ## Address decoding and validation (R40, R41) -/

theorem mapAddr_inside {p : Params} {a : Word} (h : p.memBot ≤ a.toNat ∧ a.toNat < p.memTop) :
    mapAddr p a = some (a.toNat - p.memBot) := if_pos h

theorem mapAddr_outside {p : Params} {a : Word} (h : ¬(p.memBot ≤ a.toNat ∧ a.toNat < p.memTop)) :
    mapAddr p a = none := if_neg h

theorem validAccess_iff (p : Params) (a : Word) (n : Nat) :
    validAccess p a n = true ↔ p.memBot ≤ a.toNat ∧ a.toNat + n ≤ p.memTop := by
  simp only [validAccess, Bool.and_eq_true, decide_eq_true_eq]

/-- Settles O36: the two branches of `map`, whose index is below `MEM_SIZE` because `MEM_TOP` is `MEM_BOT + MEM_SIZE`. -/
theorem addressesMapExactlyInTheWindow : Obligations.AddressesMapExactlyInTheWindow := by
  unfold Obligations.AddressesMapExactlyInTheWindow
  refine fun p a => ⟨fun h => ⟨mapAddr_inside h, ?_⟩, mapAddr_outside⟩
  obtain ⟨hbot, htop⟩ := h
  rw [Params.memTop] at htop
  omega

/-- Settles O37: the first and the last cell of an access decide it. -/
theorem accessValidExactlyWhenEveryCellMaps : Obligations.AccessValidExactlyWhenEveryCellMaps := by
  unfold Obligations.AccessValidExactlyWhenEveryCellMaps
  refine fun p a n hn => ⟨?_, validAccess_iff p a n⟩
  rw [validAccess_iff]
  constructor
  · intro ⟨hbot, htop⟩ i hi
    omega
  · intro h
    have first := h 0 hn
    have last := h (n - 1) (by omega)
    omega

/-! ## Data access (R42 to R44) -/

@[simp] theorem dataByte_byte (p : Params) (b : Byte) : dataByte p (.byte b) = some b := rfl

/-- R42: a head that a data read may take reads as 0x00. -/
@[simp] theorem dataByte_head_getD (p : Params) (w : HeadWord) : (dataByte p (.head w)).getD 0 = 0 := by
  unfold dataByte
  cases p.insnCellRead <;> rfl

/-- R42: a filler that a data read may take reads as 0x00. -/
@[simp] theorem dataByte_filler_getD (p : Params) : (dataByte p .filler).getD 0 = 0 := by
  unfold dataByte
  cases p.insnCellRead <;> rfl

/-- R44: byte `i` of the word at an address is what the cell `i` above it gives. -/
theorem byteOf_wordAt (s : State) (a : Nat) {i : Nat} (hi : i < 8) :
    byteOf (s.wordAt a) i = (dataByte s.params (s.cell (a + i))).getD 0 := byteOf_wordOfBytes _ hi

/-- Settles O38: `MemRead` by its two checks; what it reads is the word at the address, byte by byte. -/
theorem dataReadsFaultOrGatherBytes : Obligations.DataReadsFaultOrGatherBytes := by
  unfold Obligations.DataReadsFaultOrGatherBytes
  refine fun s a => ⟨fun hwin => ?_, fun hwin hcells => ?_, fun hwin hcells => ?_⟩
  · have unreadable : readable s a = false := by rw [readable, hwin, Bool.false_and]
    rw [memRead_error unreadable, hwin, if_neg Bool.false_ne_true]
  · have unreadable : readable s a = false := by rw [readable, hcells, Bool.and_false]
    rw [memRead_error unreadable, if_pos hwin]
  · have hread : readable s a = true := by rw [readable, hwin, hcells, Bool.true_and]
    refine ⟨_, memRead_ok hread, fun i hi => ?_⟩
    rw [byteOf_wordAt s _ hi]
    cases s.cell (a.toNat + i) with
    | byte b => rfl
    | head w => exact dataByte_head_getD s.params w
    | filler => exact dataByte_filler_getD s.params

/-- Settles O39: `MemWrite` outside the window and inside it. -/
theorem dataWritesFaultOrStoreBytes : Obligations.DataWritesFaultOrStoreBytes := by
  unfold Obligations.DataWritesFaultOrStoreBytes
  refine fun s a v => ⟨memWrite_outside v, fun hwin => ?_⟩
  obtain ⟨t, ht, hstored, hregs, hflags, hstatus⟩ := memWrite_storedWord v hwin
  exact ⟨t, ht, hstored, hregs, hflags, hstatus, memWrite_wf ht⟩

/-- R42: an address of the window at which a word is stored can be read. -/
theorem readable_of_storedWord {s t : State} {a v : Word} (hwin : inWindow8 t.params a = true)
    (h : storedWord s t a v) : readable t a = true := by
  rw [readable, hwin, Bool.true_and, cellsReadable, List.all_eq_true]
  intro i hi
  rw [h.1 i (List.mem_range.mp hi), cellReadable]

/-- R44: the word at an address at which a word is stored is that word. -/
theorem wordAt_of_storedWord {s t : State} {a v : Word} (h : storedWord s t a v) : t.wordAt a.toNat = v :=
  word_ext fun i hi => by rw [byteOf_wordAt t _ hi, h.1 i hi, dataByte_byte, Option.getD_some]

/-- Settles O40: a write that succeeds stores the word in the window, where it is read back. -/
theorem storeThenLoadReturnsValue : Obligations.StoreThenLoadReturnsValue := by
  unfold Obligations.StoreThenLoadReturnsValue
  intro s t a v h
  have hwin : inWindow8 s.params a = true := (memWrite_ok h).1
  obtain ⟨u, hu, hstored, _, _, hparams, _⟩ := memWrite_storedWord v hwin
  obtain rfl : u = t := Except.ok.inj (hu.symm.trans h)
  rw [memRead_ok (readable_of_storedWord (hparams ▸ hwin) hstored), wordAt_of_storedWord hstored]

/-! ## Instruction fetch (R45) -/

theorem fetchCell_outside {s : State} {a : Word} (h : ¬(s.params.memBot ≤ a.toNat ∧ a.toNat < s.params.memTop)) :
    fetchCell s a = .error ⟨.fetchWindow, a⟩ := by
  rw [fetchCell, mapAddr_outside h]

theorem fetchCell_not_head {s : State} {a : Word} (h : s.params.memBot ≤ a.toNat ∧ a.toNat < s.params.memTop)
    (hc : ∀ w, s.cell a.toNat ≠ .head w) : fetchCell s a = .error ⟨.fetchNotHead, a⟩ := by
  rw [fetchCell, mapAddr_inside h]
  cases hcell : s.cell a.toNat with
  | byte b => rfl
  | head w => exact absurd hcell (hc w)
  | filler => rfl

/-- R45: only the addressed cell is checked (decision D36). -/
theorem fetchCell_head {s : State} {a : Word} {w : HeadWord}
    (h : s.params.memBot ≤ a.toNat ∧ a.toNat < s.params.memTop) (hc : s.cell a.toNat = .head w) :
    fetchCell s a = .ok w := by
  rw [fetchCell, mapAddr_inside h, hc]

/-- R45, R161: a fetch that fails makes the step a fault that records no opcode. -/
theorem step_of_fetch_error {s : State} {e : Raised} (hr : s.runState = .running)
    (h : fetchCell s (s.reg .rip) = .error e) :
    ∃ t, step s = .next t ∧ faultRecorded t e.cause.kind e.cause.code e.addr (s.reg .rip) 0 := by
  have hs : step s = runningStep s := by rw [step, hr]
  exact ⟨_, by rw [hs, runningStep, h], rfl, rfl, rfl, rfl, rfl, rfl⟩

/-- Settles O7: the three answers of `FetchCell`, of which the first two make the step a fault. -/
theorem fetchFaultsAndFetches : Obligations.FetchFaultsAndFetches := by
  unfold Obligations.FetchFaultsAndFetches
  exact fun s hr =>
    ⟨fun hout => step_of_fetch_error hr (fetchCell_outside hout),
      fun hin hc => step_of_fetch_error hr (fetchCell_not_head hin hc),
      fun hin _ hc => fetchCell_head hin hc⟩

end Sys2Proof.Machine
end

section
/-! SUPPORT. The data-access faults of an instruction's operands (O13 to O15): which operand `Execute` reads first and which
next (spec/40_execution_core.md R86), and what an access that fails makes of the instruction. -/

namespace Sys2Proof.Machine

open Sys2Proof.Safety

/-! ## Reads (R42, R84) -/

/-- R42, R160: an instruction whose `Execute` comes to read an operand that cannot be read takes the fault of that read. -/
theorem execFaults_of_unreadable {i : Instr} {s : State} {m : Indirect} {k : Word → Except Stop State}
    (hi : i.wellFormed = true) (hb : bodyOf i s = reading s (.ind m) k) (hm : readable s (s.ea m) = false) :
    execFaults i s .address (if inWindow8 s.params (s.ea m) then 5 else 3) (s.ea m) := by
  have hf := exec_error hi (hb.trans (reading_error (readOp_error hm) k))
  cases hwin : inWindow8 s.params (s.ea m) <;> rw [hwin] at hf <;> exact hf

/-- R86: `Execute` begins with reading the source. -/
theorem bodyOf_eq_reading_source {i : Instr} {src : Operand} (s : State) (h : sourceOf i = some src) :
    ∃ k, bodyOf i s = reading s src k := by
  cases i <;> cases h <;> exact ⟨_, rfl⟩

/-- R86: once the source, if there is one, has been read, `Execute` goes on with reading the second operand. -/
theorem bodyOf_eq_reading_second {i : Instr} {s : State} {dst : Operand} (h : secondRead i = some dst)
    (hsrc : ∀ src, sourceOf i = some src → operandReadable s src = true) :
    ∃ k, bodyOf i s = reading s dst k := by
  cases i <;> cases h
  case incq | decq | negq | notq | sete | setne | setg | setge | setl | setle => exact ⟨_, rfl⟩
  all_goals exact ⟨_, reading_ok (readOp_ok (hsrc _ rfl)) _⟩

/-- Settles O13: `Execute` begins with reading the source, taken branch or not. -/
theorem unreadableSourceFaults : Obligations.UnreadableSourceFaults := by
  unfold Obligations.UnreadableSourceFaults
  intro i s m hi hsrc hm
  obtain ⟨k, hb⟩ := bodyOf_eq_reading_source s hsrc
  exact execFaults_of_unreadable hi hb hm

/-- Settles O14: after the source, `Execute` goes on with reading the second operand. -/
theorem unreadableDestinationFaults : Obligations.UnreadableDestinationFaults := by
  unfold Obligations.UnreadableDestinationFaults
  intro i s m hi hdst hsrc hm
  obtain ⟨k, hb⟩ := bodyOf_eq_reading_second hdst hsrc
  exact execFaults_of_unreadable hi hb hm

/-! ## Writes (R43, R85) -/

theorem writing_outside {s : State} {m : Indirect} (v : Word) (h : inWindow8 s.params (s.ea m) = false) :
    writing s (.ind m) v = .error ⟨⟨.writeWindow, s.ea m⟩, []⟩ :=
  writing_error (memWrite_outside v h)

theorem readingStack_ok {s : State} (h : readable s (s.reg .rsp) = true) (k : Word → Except Stop State) :
    readingStack s k = k (s.wordAt (s.reg .rsp).toNat) := by
  rw [readingStack, memRead_ok h]

/-- Settles O15: the only write of the three instructions fails, with cause 4. -/
theorem unwritableDestinationFaults : Obligations.UnwritableDestinationFaults := by
  unfold Obligations.UnwritableDestinationFaults
  intro s m hm hwin
  refine ⟨fun src hsrc hread => ?_, fun n hn => ?_, fun hread => ?_⟩
  · have hi : (Instr.movq src (.ind m)).wellFormed = true := Bool.and_eq_true_iff.mpr ⟨hsrc, hm⟩
    exact exec_error hi ((reading_ok (readOp_ok hread) _).trans (writing_outside _ hwin))
  · have hi : (Instr.leaq (.ind n) (.ind m)).wellFormed = true := Bool.and_eq_true_iff.mpr ⟨hn, hm⟩
    exact exec_error hi (writing_outside (s.ea n) hwin)
  · have hb : bodyOf (.popq (.ind m)) s = .error ⟨⟨.writeWindow, s.ea m⟩, []⟩ := by
      rw [bodyOf, popInto, readingStack_ok hread, writing_outside _ hwin]
    exact exec_error (i := .popq (.ind m)) hm hb

end Sys2Proof.Machine
end

section
/-! SUPPORT. The head word (spec/30_encoding.md): decoding and encoding are inverse (O1, O2), the checks of R68 run in their
order (O3), the fields that an instruction does not use are ignored (O4), and six words decode as written out (O5). -/

namespace Sys2Proof

open Sys2Proof.Safety

/-! ## Opcodes (R63, R64) -/

theorem opcodeOf_eq_ok_iff {opc : BitVec 8} {cc : BitVec 3} {op : Opcode} :
    opcodeOf opc cc = .ok op ↔ op.num = opc ∧ op.ccNum = cc :=
  ⟨opcodeOf_ok, by rintro ⟨rfl, rfl⟩; exact opcodeOf_num op⟩

theorem Opcode.nops_le_two (op : Opcode) : op.nops ≤ 2 := by cases op <;> simp [Opcode.nops]

theorem Opcode.nops_eq_countOf (op : Opcode) : op.nops = countOf op.num.toNat := by cases op <;> rfl

/-- R64: SETcc and Jcc are the opcodes that take a condition code. -/
theorem Opcode.ccNum_eq_zero {op : Opcode} (h : ¬(op.num.toNat = 0x11 ∨ op.num.toNat = 0x17)) : op.ccNum = 0 := by
  cases op
  case setcc => exact absurd (.inl rfl) h
  case jcc => exact absurd (.inr rfl) h
  all_goals rfl

/-- R63: 0x01 to 0x17 are the numbers of opcodes. -/
theorem Opcode.exists_num {opc : BitVec 8} (hlo : 0x01 ≤ opc.toNat) (hhi : opc.toNat ≤ 0x17) :
    ∃ op : Opcode, op.num = opc := by
  have named : ∃ op, opcodeOf opc 0 = .ok op := by
    unfold opcodeOf
    split
    case h_24 => simp only [imp_false] at *; omega
    all_goals exact ⟨_, rfl⟩
  obtain ⟨op, hop⟩ := named
  exact ⟨op, (opcodeOf_ok hop).1⟩

/-- R64: 0 to 5 are the numbers of condition codes. -/
theorem Cond.exists_num {n : BitVec 3} (h : n.toNat ≤ 5) : ∃ c : Cond, c.num = n := by
  have named : ∀ m : BitVec 3, m.toNat ≤ 5 → (Cond.ofNum m).isSome := by decide
  obtain ⟨c, hc⟩ := Option.isSome_iff_exists.mp (named n h)
  exact ⟨c, (Cond.ofNum_eq_some.mp hc).symm⟩

theorem Cond.ofNum_reserved {n : BitVec 3} (h : 5 < n.toNat) : Cond.ofNum n = none := by revert n; decide

/-- R68: the second check. -/
theorem opcodeOf_reserved {opc : BitVec 8} (cc : BitVec 3) (h : opc.toNat < 0x01 ∨ 0x17 < opc.toNat) :
    opcodeOf opc cc = .error .reservedOpcode := by
  unfold opcodeOf
  split
  case h_24 => rfl
  all_goals omega

/-- R68: the third check, of SETcc and Jcc. -/
theorem opcodeOf_cond_reserved {opc : BitVec 8} {cc : BitVec 3} (h : opc.toNat = 0x11 ∨ opc.toNat = 0x17)
    (hcc : 5 < cc.toNat) : opcodeOf opc cc = .error .conditionCode := by
  rcases h with h | h <;> simp only [opcodeOf, h, condOpcode, Cond.ofNum_reserved hcc]

/-- R68: the third check, of every other opcode. -/
theorem opcodeOf_plain_nonzero {opc : BitVec 8} {cc : BitVec 3} (hlo : 0x01 ≤ opc.toNat) (hhi : opc.toNat ≤ 0x17)
    (h : ¬(opc.toNat = 0x11 ∨ opc.toNat = 0x17)) (hcc : cc ≠ 0) : opcodeOf opc cc = .error .conditionCode := by
  obtain ⟨op, rfl⟩ := Opcode.exists_num hlo hhi
  cases op
  case setcc => exact absurd (.inl rfl) h
  case jcc => exact absurd (.inr rfl) h
  all_goals exact if_neg hcc

/-- R68: a word that passes the second and the third check has an opcode. -/
theorem Opcode.exists_num_ccNum {opc : BitVec 8} {cc : BitVec 3} (hlo : 0x01 ≤ opc.toNat) (hhi : opc.toNat ≤ 0x17)
    (hcond : opc.toNat = 0x11 ∨ opc.toNat = 0x17 → cc.toNat ≤ 5)
    (hplain : ¬(opc.toNat = 0x11 ∨ opc.toNat = 0x17) → cc = 0) : ∃ op : Opcode, op.num = opc ∧ op.ccNum = cc := by
  obtain ⟨op, rfl⟩ := Opcode.exists_num hlo hhi
  by_cases h : op.num.toNat = 0x11 ∨ op.num.toNat = 0x17
  · obtain ⟨c, rfl⟩ := Cond.exists_num (hcond h)
    rcases h with h | h
    · exact ⟨.setcc c, BitVec.eq_of_toNat_eq h.symm, rfl⟩
    · exact ⟨.jcc c, BitVec.eq_of_toNat_eq h.symm, rfl⟩
  · exact ⟨op, rfl, by rw [Opcode.ccNum_eq_zero h, hplain h]⟩

/-! ## Operands (R65) -/

/-- R62: 0 to 16 are the indices of registers. -/
theorem Reg.exists_index {n : BitVec 5} (h : n.toNat ≤ 16) : ∃ r : Reg, r.index = n := by
  have named : ∀ m : BitVec 5, m.toNat ≤ 16 → (Reg.ofIndex m).isSome := by decide
  obtain ⟨r, hr⟩ := Option.isSome_iff_exists.mp (named n h)
  exact ⟨r, (Reg.ofIndex_eq_some.mp hr).symm⟩

theorem Reg.ofIndex_reserved {n : BitVec 5} (h : 16 < n.toNat) : Reg.ofIndex n = none := by revert n; decide

/-- R65: the operand that a descriptor stands for is the one it decodes to. -/
theorem decodeOperand_of_operandIs {d : Descriptor} {op : Operand} (h : operandIs op d.kind d.reg d.imm) :
    decodeOperand d = .ok op := by
  obtain ⟨k, r, i⟩ := d
  rcases op with v | q | (v | q | ⟨v, q⟩) <;> dsimp only [operandIs] at h
  · obtain ⟨rfl, rfl⟩ := h; rfl
  · obtain ⟨rfl, rfl⟩ := h; simp [decodeOperand]
  · obtain ⟨rfl, rfl⟩ := h; rfl
  · obtain ⟨rfl, rfl⟩ := h; simp [decodeOperand]
  · obtain ⟨rfl, rfl, rfl⟩ := h; simp [decodeOperand]

/-- R65, R68: a descriptor that fails no check stands for an operand. -/
theorem exists_operandIs {k : BitVec 3} {r : BitVec 5} (i : Word) (h : descriptorFault k r = none) :
    ∃ op, operandIs op k r i := by
  unfold descriptorFault at h
  split at h
  · cases h
  next hk =>
  split at h
  · cases h
  next hr =>
  have named : k = 1 ∨ k = 3 ∨ k = 4 → ∃ q : Reg, q.index = r := fun h =>
    Reg.exists_index (not_lt.mp fun hlt => hr ⟨h, hlt⟩)
  have kinds : k = 0 ∨ k = 1 ∨ k = 2 ∨ k = 3 ∨ k = 4 := by bv_omega
  rcases kinds with rfl | rfl | rfl | rfl | rfl
  · exact ⟨.imm i, rfl, rfl⟩
  · obtain ⟨q, hq⟩ := named (by decide); exact ⟨.reg q, rfl, hq⟩
  · exact ⟨.ind (.ind1 i), rfl, rfl⟩
  · obtain ⟨q, hq⟩ := named (by decide); exact ⟨.ind (.ind2 q), rfl, hq⟩
  · obtain ⟨q, hq⟩ := named (by decide); exact ⟨.ind (.ind3 i q), rfl, rfl, hq⟩

/-- R68: the checks of a used descriptor. -/
theorem decodeOperand_error {d : Descriptor} {f : DecodeFault} (h : descriptorFault d.kind d.reg = some f) :
    decodeOperand d = .error f := by
  obtain ⟨k, r, i⟩ := d
  unfold descriptorFault at h
  split at h
  · next hk =>
    cases h
    have kinds : k = 5 ∨ k = 6 ∨ k = 7 := by bv_omega
    rcases kinds with rfl | rfl | rfl <;> rfl
  next hk =>
  split at h
  · next hr =>
    cases h
    obtain ⟨rfl | rfl | rfl, hr⟩ := hr <;> simp [decodeOperand, Reg.ofIndex_reserved hr]
  · cases h

theorem decodeOperand_eq_ok_iff {d : Descriptor} {op : Operand} :
    decodeOperand d = .ok op ↔ operandIs op d.kind d.reg d.imm := by
  refine ⟨fun h => ?_, decodeOperand_of_operandIs⟩
  cases hf : descriptorFault d.kind d.reg with
  | some f => rw [decodeOperand_error hf] at h; cases h
  | none =>
    obtain ⟨op', hop⟩ := exists_operandIs d.imm hf
    rw [decodeOperand_of_operandIs hop] at h
    cases h
    exact hop

theorem encodeOperand_canonical (op : Operand) : (encodeOperand op).canonical = true := by
  rcases op with v | q | (v | q | ⟨v, q⟩) <;> rfl

/-- R69: a canonical descriptor is the one of the operand it stands for. -/
theorem encodeOperand_of_canonical {d : Descriptor} {op : Operand} (h : operandIs op d.kind d.reg d.imm)
    (hc : d.canonical = true) : encodeOperand op = d := by
  obtain ⟨k, r, i⟩ := d
  rcases op with v | q | (v | q | ⟨v, q⟩) <;> dsimp only [operandIs] at h
  · obtain ⟨rfl, rfl⟩ := h; rw [encodeOperand, ← beq_iff_eq.mp hc]
  · obtain ⟨rfl, rfl⟩ := h; rw [encodeOperand, ← beq_iff_eq.mp hc]
  · obtain ⟨rfl, rfl⟩ := h; rw [encodeOperand, ← beq_iff_eq.mp hc]
  · obtain ⟨rfl, rfl⟩ := h; rw [encodeOperand, ← beq_iff_eq.mp hc]
  · obtain ⟨rfl, rfl, rfl⟩ := h; rfl

/-! ## Lists of operands (R61, R63) -/

theorem decodeOperands_one {h : HeadFields} {a : Operand} (ha : decodeOperand h.a = .ok a) :
    decodeOperands h 1 = .ok [a] := by simp only [decodeOperands, ha]

theorem decodeOperands_two {h : HeadFields} {a b : Operand} {n : Nat} (h0 : n ≠ 0) (h1 : n ≠ 1)
    (ha : decodeOperand h.a = .ok a)
    (hb : decodeOperand h.b = .ok b) :
    decodeOperands h n = .ok [a, b] := by simp only [decodeOperands, ha, hb]

/-- R68: operand 0 is checked first. -/
theorem decodeOperands_error_a {h : HeadFields} {n : Nat} {f : DecodeFault} (hn : n ≠ 0)
    (ha : decodeOperand h.a = .error f) : decodeOperands h n = .error f := by
  unfold decodeOperands
  split
  · exact absurd rfl hn
  · rw [ha]
  · rw [ha]

theorem decodeOperands_error_b {h : HeadFields} {a : Operand} {n : Nat} {f : DecodeFault} (h0 : n ≠ 0) (h1 : n ≠ 1)
    (ha : decodeOperand h.a = .ok a) (hb : decodeOperand h.b = .error f) : decodeOperands h n = .error f := by
  simp only [decodeOperands, ha, hb]

/-- Everything that the decoding of operands gives when it succeeds. -/
theorem decodeOperands_ok_cases {h : HeadFields} {n : Nat} {ops : List Operand} (hd : decodeOperands h n = .ok ops) :
    (n = 0 ∧ ops = []) ∨
      (n = 1 ∧ ∃ a, operandIs a h.a.kind h.a.reg h.a.imm ∧ ops = [a]) ∨
      (1 < n ∧ ∃ a b, operandIs a h.a.kind h.a.reg h.a.imm ∧ operandIs b h.b.kind h.b.reg h.b.imm ∧ ops = [a, b]) := by
  rcases n with _ | _ | n <;> simp only [decodeOperands] at hd
  · cases hd; exact .inl ⟨rfl, rfl⟩
  · split at hd
    · next a ha => cases hd; exact .inr (.inl ⟨rfl, a, decodeOperand_eq_ok_iff.mp ha, rfl⟩)
    · cases hd
  · split at hd
    · next a ha =>
      split at hd
      · next b hb =>
        cases hd
        exact .inr (.inr ⟨by omega, a, b, decodeOperand_eq_ok_iff.mp ha, decodeOperand_eq_ok_iff.mp hb, rfl⟩)
      · cases hd
    · cases hd

/-- R65: each operand decoded is the one that its descriptor stands for. -/
theorem operandIs_of_decodeOperands {h : HeadFields} {n : Nat} {ops : List Operand} (hd : decodeOperands h n = .ok ops) :
    (∀ op, ops[0]? = some op → operandIs op h.a.kind h.a.reg h.a.imm) ∧
      ∀ op, ops[1]? = some op → operandIs op h.b.kind h.b.reg h.b.imm := by
  rcases decodeOperands_ok_cases hd with ⟨_, rfl⟩ | ⟨_, a, ha, rfl⟩ | ⟨_, a, b, ha, hb, rfl⟩
  · exact ⟨nofun, nofun⟩
  · exact ⟨fun op h => Option.some.inj h ▸ ha, nofun⟩
  · exact ⟨fun op h => Option.some.inj h ▸ ha, fun op h => Option.some.inj h ▸ hb⟩

/-- R63: the abstract value with its opcode's number of operands is an instruction's. -/
theorem AbsInstr.exists_abs {x : AbsInstr} (h : x.operands.length = x.op.nops) : ∃ i : Instr, i.abs = x := by
  obtain ⟨op, ops⟩ := x
  have one : op.nops = 1 → ∃ d, ops = [d] := fun hn => List.length_eq_one_iff.mp (h.trans hn)
  have two : op.nops = 2 → ∃ a b, ops = [a, b] := fun hn => List.length_eq_two.mp (h.trans hn)
  have named : ∃ i, (AbsInstr.mk op ops).toInstr = some i := by
    cases op
    case retq =>
      obtain rfl := List.length_eq_zero_iff.mp h
      exact ⟨_, rfl⟩
    case incq | decq | negq | notq | pushq | popq | jmp | callq =>
      obtain ⟨d, rfl⟩ := one rfl
      exact ⟨_, rfl⟩
    case setcc c | jcc c =>
      obtain ⟨d, rfl⟩ := one rfl
      cases c <;> exact ⟨_, rfl⟩
    all_goals
      obtain ⟨a, b, rfl⟩ := two rfl
      exact ⟨_, rfl⟩
  obtain ⟨i, hi⟩ := named
  exact ⟨i, AbsInstr.abs_of_toInstr hi⟩

/-! ## The decoder (R68) -/

/-- R68: an instruction is decoded exactly from the fields that are its own. -/
theorem decodeFields_eq_ok_iff {h : HeadFields} {i : Instr} :
    decodeFields h = .ok i ↔
      h.reserved = 0 ∧ i.abs.op.num = h.opc ∧ i.abs.op.ccNum = h.cc ∧ h.nops.toNat = i.abs.op.nops ∧
        decodeOperands h i.abs.op.nops = .ok i.abs.operands := by
  refine ⟨decodeFields_ok, fun ⟨hres, hopc, hcc, hn, hops⟩ => ?_⟩
  have hi : (AbsInstr.mk i.abs.op i.abs.operands).toInstr = some i := AbsInstr.toInstr_abs i
  simp only [decodeFields, hres, opcodeOf_eq_ok_iff.mpr ⟨hopc, hcc⟩, hn, hops, hi, ne_eq, not_true_eq_false, if_false]

@[simp] theorem decode_pack (h : HeadFields) : decode (pack h) = decodeFields h := by rw [decode, unpack_pack]

/-! ## The encoder (R61, R69) -/

theorem nopsField_toNat {n : Nat} (h : n ≤ 2) : (nopsField n).toNat = n := by
  rw [nopsField, Nat.min_eq_left (by omega), BitVec.toNat_ofNat, Nat.mod_eq_of_lt (by omega)]

/-- R63: an instruction has no operand, one, or two. -/
theorem Instr.operands_cases (i : Instr) :
    i.abs.operands = [] ∨ (∃ a, i.abs.operands = [a]) ∨ ∃ a b, i.abs.operands = [a, b] := by
  have hlen : i.abs.operands.length ≤ 2 := i.abs_operands_length ▸ i.abs.op.nops_le_two
  generalize i.abs.operands = ops at hlen
  rcases ops with _ | ⟨a, _ | ⟨b, _ | ⟨c, rest⟩⟩⟩
  · exact .inl rfl
  · exact .inr (.inl ⟨a, rfl⟩)
  · exact .inr (.inr ⟨a, b, rfl⟩)
  · simp only [List.length_cons] at hlen; omega

theorem fields_nops_toNat (i : Instr) : i.abs.fields.nops.toNat = i.abs.operands.length :=
  nopsField_toNat (i.abs_operands_length ▸ i.abs.op.nops_le_two)

/-- R65: the operands of an instruction are decoded back from its fields. -/
theorem decodeOperands_fields (i : Instr) : decodeOperands i.abs.fields i.abs.op.nops = .ok i.abs.operands := by
  rw [← i.abs_operands_length]
  rcases i.operands_cases with h | ⟨a, h⟩ | ⟨a, b, h⟩ <;> rw [h]
  · rfl
  · exact decodeOperands_one (by simp only [AbsInstr.fields, h, decodeOperand_encodeOperand])
  · exact decodeOperands_two (n := 2) (by decide) (by decide) (by simp only [AbsInstr.fields, h, decodeOperand_encodeOperand])
      (by simp only [AbsInstr.fields, h, decodeOperand_encodeOperand])

/-- Settles O1: packing loses no field, and each field of an instruction's head word is decoded to what it was made from. -/
theorem decodeEncodeRoundTrip : Obligations.DecodeEncodeRoundTrip := by
  unfold Obligations.DecodeEncodeRoundTrip
  intro i
  rw [encode, AbsInstr.encode, decode_pack, decodeFields_eq_ok_iff]
  exact ⟨rfl, rfl, rfl, (fields_nops_toNat i).trans i.abs_operands_length, decodeOperands_fields i⟩

/-! ## Canonical words (R69) -/

theorem canonical_of_nops_zero {w : HeadWord} (h : (unpack w).nops.toNat = 0) :
    HeadWord.canonical w = ((unpack w).a == .zero && (unpack w).b == .zero) := by
  simp only [HeadWord.canonical, h]

theorem canonical_of_nops_one {w : HeadWord} (h : (unpack w).nops.toNat = 1) :
    HeadWord.canonical w = ((unpack w).a.canonical && (unpack w).b == .zero) := by
  simp only [HeadWord.canonical, h]

theorem canonical_of_nops_two {w : HeadWord} (h : (unpack w).nops.toNat = 2) :
    HeadWord.canonical w = ((unpack w).a.canonical && (unpack w).b.canonical) := by
  simp only [HeadWord.canonical, h]

/-- R69: every encoding is canonical. -/
theorem encode_canonical (i : Instr) : HeadWord.canonical (encode i) = true := by
  have hu : unpack (encode i) = i.abs.fields := unpack_pack _
  have hn : (unpack (encode i)).nops.toNat = i.abs.operands.length := hu ▸ fields_nops_toNat i
  rcases i.operands_cases with h | ⟨a, h⟩ | ⟨a, b, h⟩ <;> rw [h] at hn
  · rw [canonical_of_nops_zero hn, hu]; simp [AbsInstr.fields, h]
  · rw [canonical_of_nops_one hn, hu]; simp [AbsInstr.fields, h, encodeOperand_canonical]
  · rw [canonical_of_nops_two hn, hu]; simp [AbsInstr.fields, h, encodeOperand_canonical]

/-- R69: in a canonical word the descriptors are those of the operands decoded. -/
theorem fields_descriptors_of_canonical {w : HeadWord} {i : Instr} (hn : (unpack w).nops.toNat = i.abs.op.nops)
    (hops : decodeOperands (unpack w) i.abs.op.nops = .ok i.abs.operands) (hc : HeadWord.canonical w = true) :
    i.abs.fields.a = (unpack w).a ∧ i.abs.fields.b = (unpack w).b := by
  have hlen := i.abs_operands_length
  rcases decodeOperands_ok_cases hops with ⟨h0, h⟩ | ⟨h1, a, ha, h⟩ | ⟨h2, a, b, ha, hb, h⟩
  · rw [canonical_of_nops_zero (hn.trans h0), Bool.and_eq_true, beq_iff_eq, beq_iff_eq] at hc
    simp only [AbsInstr.fields, h, hc, and_self]
  · rw [canonical_of_nops_one (hn.trans h1), Bool.and_eq_true, beq_iff_eq] at hc
    simp only [AbsInstr.fields, h, hc.2, encodeOperand_of_canonical ha hc.1, and_self]
  · rw [h] at hlen
    rw [canonical_of_nops_two (hn.trans hlen.symm), Bool.and_eq_true] at hc
    simp only [AbsInstr.fields, h, encodeOperand_of_canonical ha hc.1, encodeOperand_of_canonical hb hc.2, and_self]

/-- R61, R69: the fields of a canonical word are those of the instruction it decodes to. -/
theorem fields_of_canonical {w : HeadWord} {i : Instr} (hd : decode w = .ok i) (hc : HeadWord.canonical w = true) :
    i.abs.fields = unpack w := by
  obtain ⟨hres, hopc, hcc, hn, hops⟩ := decodeFields_ok hd
  obtain ⟨ha, hb⟩ := fields_descriptors_of_canonical hn hops hc
  have hnops : i.abs.fields.nops = (unpack w).nops :=
    BitVec.eq_of_toNat_eq (by rw [fields_nops_toNat, i.abs_operands_length, hn])
  calc i.abs.fields
    _ = ⟨i.abs.op.num, i.abs.op.ccNum, i.abs.fields.nops, 0, i.abs.fields.a, i.abs.fields.b⟩ := rfl
    _ = unpack w := by rw [hopc, hcc, hnops, ← hres, ha, hb]

/-- Settles O2: a word is made of its fields, and those of a canonical word are its instruction's. -/
theorem canonicalWordsEncodeBack : Obligations.CanonicalWordsEncodeBack := by
  unfold Obligations.CanonicalWordsEncodeBack
  refine ⟨fun w i hd hc => ?_, encode_canonical⟩
  rw [encode, AbsInstr.encode, fields_of_canonical hd hc, pack_unpack]

/-! ## The order of the checks (R68) -/

theorem decodeOperands_length {h : HeadFields} {n : Nat} {ops : List Operand} (hn : n ≤ 2)
    (hd : decodeOperands h n = .ok ops) : ops.length = n := by
  rcases decodeOperands_ok_cases hd with ⟨rfl, rfl⟩ | ⟨rfl, a, _, rfl⟩ | ⟨h2, a, b, _, _, rfl⟩
  · rfl
  · rfl
  · exact Nat.le_antisymm h2 hn

/-- A decoding ends as a verdict on it says. -/
def EndsAs {α : Type} (r : Except DecodeFault α) : Option DecodeFault → Prop
  | some f => r = .error f
  | none => ∃ a, r = .ok a

theorem decodeOperand_endsAs (d : Descriptor) : EndsAs (decodeOperand d) (descriptorFault d.kind d.reg) := by
  cases hf : descriptorFault d.kind d.reg with
  | some f => exact decodeOperand_error hf
  | none => exact (exists_operandIs d.imm hf).imp fun _ => decodeOperand_eq_ok_iff.mpr

/-- The checks that `decodeVerdict` makes of the descriptors in use (R68). -/
def operandsVerdict (h : HeadFields) : Option DecodeFault :=
  if h.nops.toNat = 0 then none
  else match descriptorFault h.a.kind h.a.reg with
    | some f => some f
    | none => if h.nops.toNat = 1 then none else descriptorFault h.b.kind h.b.reg

theorem decodeOperands_endsAs (h : HeadFields) : EndsAs (decodeOperands h h.nops.toNat) (operandsVerdict h) := by
  have ha := decodeOperand_endsAs h.a
  have hb := decodeOperand_endsAs h.b
  unfold operandsVerdict
  split
  · next h0 => exact ⟨[], by rw [h0]; rfl⟩
  next h0 =>
  split
  · next f hf => rw [hf] at ha; exact decodeOperands_error_a h0 ha
  next hf =>
  rw [hf] at ha
  obtain ⟨a, ha⟩ := ha
  split
  · next h1 => exact ⟨[a], by rw [h1]; exact decodeOperands_one ha⟩
  next h1 =>
  cases hg : descriptorFault h.b.kind h.b.reg with
  | some f => rw [hg] at hb; exact decodeOperands_error_b h0 h1 ha hb
  | none =>
    rw [hg] at hb
    obtain ⟨b, hb⟩ := hb
    exact ⟨[a, b], decodeOperands_two h0 h1 ha hb⟩

theorem decodeFields_reserved {h : HeadFields} (hres : h.reserved ≠ 0) : decodeFields h = .error .reservedBits :=
  if_pos hres

theorem decodeFields_opcode_error {h : HeadFields} {f : DecodeFault} (hres : h.reserved = 0)
    (hop : opcodeOf h.opc h.cc = .error f) : decodeFields h = .error f := by
  rw [decodeFields, if_neg (not_not.mpr hres), hop]

section
variable {h : HeadFields} {op : Opcode} (hres : h.reserved = 0) (hop : op.num = h.opc ∧ op.ccNum = h.cc)
include hres hop

theorem decodeFields_count_error (hn : h.nops.toNat ≠ op.nops) : decodeFields h = .error .operandCount := by
  simp only [decodeFields, if_neg (not_not.mpr hres), opcodeOf_eq_ok_iff.mpr hop, if_pos hn]

/-- R63, R68: the decoding of the operands is the last check. -/
theorem decodeFields_endsAs {v : Option DecodeFault} (hn : h.nops.toNat = op.nops)
    (hops : EndsAs (decodeOperands h h.nops.toNat) v) : EndsAs (decodeFields h) v := by
  rw [hn] at hops
  cases v with
  | some f =>
    have hops : decodeOperands h op.nops = .error f := hops
    show decodeFields h = .error f
    simp only [decodeFields, if_neg (not_not.mpr hres), opcodeOf_eq_ok_iff.mpr hop, if_neg (not_not.mpr hn), hops]
  | none =>
    obtain ⟨ops, hops⟩ := hops
    obtain ⟨i, hi⟩ := AbsInstr.exists_abs (x := ⟨op, ops⟩) (decodeOperands_length op.nops_le_two hops)
    exact ⟨i, decodeFields_eq_ok_iff.mpr (by rw [hi]; exact ⟨hres, hop.1, hop.2, hn, hops⟩)⟩

end

/-- R68: the decoder makes the checks of `decodeVerdict`. -/
theorem decode_endsAs (w : HeadWord) : EndsAs (decode w) (decodeVerdict w) := by
  unfold decodeVerdict
  dsimp only
  split
  · next hres => exact decodeFields_reserved hres
  next hres =>
  have hres : (unpack w).reserved = 0 := not_not.mp hres
  split
  · next hopc => exact decodeFields_opcode_error hres (opcodeOf_reserved _ hopc)
  next hopc =>
  have hlo : 0x01 ≤ (unpack w).opc.toNat := not_lt.mp fun hlt => hopc (.inl hlt)
  have hhi : (unpack w).opc.toNat ≤ 0x17 := not_lt.mp fun hlt => hopc (.inr hlt)
  split
  · next hcond => exact decodeFields_opcode_error hres (opcodeOf_cond_reserved hcond.1 hcond.2)
  next hcond =>
  split
  · next hplain =>
    exact decodeFields_opcode_error hres
      (opcodeOf_plain_nonzero hlo hhi hplain.1 fun hcc => hplain.2 (congrArg BitVec.toNat hcc))
  next hplain =>
  have cond : (unpack w).opc.toNat = 0x11 ∨ (unpack w).opc.toNat = 0x17 → (unpack w).cc.toNat ≤ 5 :=
    fun h => not_lt.mp fun hlt => hcond ⟨h, hlt⟩
  have plain : ¬((unpack w).opc.toNat = 0x11 ∨ (unpack w).opc.toNat = 0x17) → (unpack w).cc = 0 :=
    fun h => BitVec.eq_of_toNat_eq (not_not.mp fun hne => hplain ⟨h, hne⟩)
  obtain ⟨op, hop⟩ := Opcode.exists_num_ccNum hlo hhi cond plain
  have hcount : countOf (unpack w).opc.toNat = op.nops := by rw [← hop.1, op.nops_eq_countOf]
  split
  · next hn => exact decodeFields_count_error hres hop fun h => hn (h.trans hcount.symm)
  next hn =>
  have hn : (unpack w).nops.toNat = op.nops := (not_not.mp hn).trans hcount
  exact decodeFields_endsAs hres hop hn (decodeOperands_endsAs _)

/-- Settles O3: the decoder makes the checks of the verdict, and the fields of a word that passes are its instruction's. -/
theorem decodeChecksRunInOrder : Obligations.DecodeChecksRunInOrder := by
  unfold Obligations.DecodeChecksRunInOrder
  intro w
  have h := decode_endsAs w
  cases hv : decodeVerdict w with
  | some f => rw [hv] at h; exact h
  | none =>
    rw [hv] at h
    obtain ⟨i, hi⟩ := h
    obtain ⟨_, hopc, hcc, hn, hops⟩ := decodeFields_ok hi
    obtain ⟨ha, hb⟩ := operandIs_of_decodeOperands hops
    exact ⟨i, hi, hopc, hcc, i.abs_operands_length.trans hn.symm, ha, hb⟩

/-! ## Ignored fields (R69, decision D14) -/

/-- R65: an immediate and an `Ind1` use no register index. -/
theorem decodeOperand_reg_unused {d : Descriptor} (h : d.kind = 0 ∨ d.kind = 2) (r : BitVec 5) :
    decodeOperand { d with reg := r } = decodeOperand d := by
  rcases h with h | h <;> simp only [decodeOperand, h] <;> rfl

/-- R65: a register and an `Ind2` use no immediate. -/
theorem decodeOperand_imm_unused {d : Descriptor} (h : d.kind = 1 ∨ d.kind = 3) (v : Word) :
    decodeOperand { d with imm := v } = decodeOperand d := by
  rcases h with h | h <;> simp only [decodeOperand, h] <;> rfl

/-- R68: the descriptors of a word are used only to decode its operands. -/
theorem decode_pack_descriptors {h : HeadFields} {a b : Descriptor}
    (hops : decodeOperands { h with a := a, b := b } h.nops.toNat = decodeOperands h h.nops.toNat) :
    decode (pack { h with a := a, b := b }) = decode (pack h) := by
  rw [decode_pack, decode_pack, decodeFields, decodeFields]
  cases opcodeOf h.opc h.cc with
  | error f => rfl
  | ok op =>
    by_cases hn : h.nops.toNat = op.nops
    · simp only [← hn, hops]
    · simp only [hn, ne_eq, not_false_eq_true, if_true]

theorem decodeOperands_congr {h : HeadFields} {a b : Descriptor} (ha : decodeOperand a = decodeOperand h.a)
    (hb : decodeOperand b = decodeOperand h.b) (n : Nat) :
    decodeOperands { h with a := a, b := b } n = decodeOperands h n := by
  unfold decodeOperands
  simp only [ha, hb]

/-- R63: the second descriptor is used only by an instruction with two operands. -/
theorem decodeOperands_b_unused {h : HeadFields} {n : Nat} (hn : n < 2) (d : Descriptor) :
    decodeOperands { h with b := d } n = decodeOperands h n := by
  rcases n with _ | _ | n
  · rfl
  · rfl
  · omega

/-- Settles O4: such a field is no part of what the operands are decoded from. -/
theorem unusedFieldsAreIgnored : Obligations.UnusedFieldsAreIgnored := by
  unfold Obligations.UnusedFieldsAreIgnored
  intro h r v d
  refine ⟨fun hk => ?_, fun hk => ?_, fun hk => ?_, fun hk => ?_, fun hn => ?_, fun hn => ?_⟩
  · exact decode_pack_descriptors (decodeOperands_congr (decodeOperand_reg_unused hk r) rfl _)
  · exact decode_pack_descriptors (decodeOperands_congr (decodeOperand_imm_unused hk v) rfl _)
  · exact decode_pack_descriptors (decodeOperands_congr rfl (decodeOperand_reg_unused hk r) _)
  · exact decode_pack_descriptors (decodeOperands_congr rfl (decodeOperand_imm_unused hk v) _)
  · exact decode_pack_descriptors (decodeOperands_b_unused hn d)
  · exact decode_pack_descriptors (by rw [hn]; rfl)

/-! ## Written-out words -/

/-- Settles O5: the decoder, run on the six words. -/
theorem writtenOutWordsDecode : Obligations.WrittenOutWordsDecode := ⟨rfl, rfl, rfl, rfl, rfl, rfl⟩

end Sys2Proof
end

section
/-! SUPPORT. The faults of the decoder and of the shape check: a word that does not decode (O8), and an instruction whose
operands the table of spec/30_encoding.md R72 does not allow (O12). -/

namespace Sys2Proof.Machine

open Sys2Proof.Safety

/-! ## Decode faults (R68, spec/60_exceptions.md R161) -/

theorem step_of_decode_error {s : State} {w : HeadWord} {d : DecodeFault} (hr : s.runState = .running)
    (hw : fetchCell s (s.reg .rip) = .ok w) (hd : decode w = .error d) :
    ∃ t, step s = .next t ∧
      faultRecorded t .decode (decodeCause d).code (s.reg .rip) (s.reg .rip) (HeadWord.opc w) := by
  have hs : step s = runningStep s := by rw [step, hr]
  exact ⟨_, by simp only [hs, runningStep, hw, hd]; rfl, rfl, decodeCause_kind d, rfl, rfl, rfl, rfl⟩

/-- Settles O8: the decoder reports the verdict (O3), and the step raises what the decoder reports. -/
theorem undecodableWordsFault : Obligations.UndecodableWordsFault := by
  unfold Obligations.UndecodableWordsFault
  intro s w f hr hbot htop hc hv
  have hd : decode w = .error f := by simpa only [hv, EndsAs] using decode_endsAs w
  obtain ⟨t, ht, hrec⟩ := step_of_decode_error hr (fetchCell_head ⟨hbot, htop⟩ hc) hd
  refine ⟨t, ht, ?_⟩
  cases f <;> exact hrec

/-! ## The cause of a malformed operand (R72) -/

/-- R72: the operands that a role allows. -/
def Role.allows : Role → Operand → Bool
  | .anyKind => Operand.anySource
  | .destination => Operand.destination
  | .leaqSource => Operand.indirectSource
  | .shiftAmount => Operand.shiftAmount

theorem checkOperand_none_iff (role : Role) (op : Operand) : checkOperand role op = none ↔ role.allows op = true := by
  cases role
  · exact checkOperand_anyKind op
  · exact checkOperand_destination op
  · exact checkOperand_leaqSource op
  · exact checkOperand_shiftAmount op

/-- R160: the cause code of an operand whose kind the role does not allow; `anyKind` allows every kind. -/
def Role.kindCode : Role → BitVec 4
  | .anyKind => 2
  | .destination => 2
  | .leaqSource => 4
  | .shiftAmount => 3

theorem namesRip_eq_mentionsRip (op : Operand) : namesRip op = mentionsRip op := by
  rcases op with i | r | (i | r | ⟨i, r⟩)
  case imm | ind.ind1 => rfl
  all_goals cases r <;> rfl

/-- R72: `rip` comes first, then the kind. -/
theorem checkOperand_code {role : Role} {op : Operand} {c : Cause} (h : checkOperand role op = some c) :
    c.code = if mentionsRip op then 1 else role.kindCode := by
  unfold checkOperand at h
  rw [namesRip_eq_mentionsRip] at h
  split at h
  · next hrip => cases h; rw [if_pos hrip]; rfl
  next hrip =>
  rw [if_neg hrip]
  cases role with
  | anyKind => cases h
  | destination =>
    cases op with
    | imm i => cases h; rfl
    | reg | ind => cases h
  | leaqSource =>
    cases op with
    | ind m => cases h
    | imm | reg => cases h; rfl
  | shiftAmount =>
    cases op with
    | imm i => cases h
    | reg r => cases r <;> cases h <;> rfl
    | ind m => cases h; rfl

/-- R72: the operands are judged in order. -/
theorem checkOperands_cons_some {role : Role} {roles : List Role} {op : Operand} {ops : List Operand} {c : Cause}
    (h : checkOperands (role :: roles) (op :: ops) = some c) :
    checkOperand role op = some c ∨ checkOperand role op = none ∧ checkOperands roles ops = some c := by
  rw [checkOperands] at h
  split at h
  · next hc => exact .inl (hc.trans h)
  · next hc => exact .inr ⟨hc, h⟩

/-- R72: an instruction whose operand 0 is at fault. -/
theorem shapeCause_of_operand0 {i : Instr} {a : Operand} {rest : List Operand} {role : Role} {c : Cause}
    (hops : i.abs.operands = a :: rest) (hfine : operand0Fine i = role.allows a)
    (hkind : (if isLeaq i then 4 else if isShift i then 3 else 2) = role.kindCode)
    (h : checkOperand role a = some c) : c.code = shapeCause i := by
  have hbad : operand0Fine i = false := by
    rw [hfine, ← Bool.not_eq_true, ← checkOperand_none_iff, h]
    exact Option.some_ne_none c
  rw [checkOperand_code h, ← hkind, shapeCause, hops]
  simp only [hbad, if_true]

/-- R72: an instruction whose operand 0 is allowed and whose operand 1 is at fault. -/
theorem shapeCause_of_operand1 {i : Instr} {a b : Operand} {role : Role} {c : Cause}
    (hops : i.abs.operands = [a, b]) (hfine : operand0Fine i = true) (hkind : role.kindCode = 2)
    (h : checkOperand role b = some c) : c.code = shapeCause i := by
  rw [checkOperand_code h, hkind, shapeCause, hops]
  simp only [hfine, Bool.true_eq_false, if_false]

theorem shapeCause_one {i : Instr} {a : Operand} {role : Role} {c : Cause} (hops : i.abs.operands = [a])
    (hfine : operand0Fine i = role.allows a)
    (hkind : (if isLeaq i then 4 else if isShift i then 3 else 2) = role.kindCode)
    (h : checkOperands [role] [a] = some c) : c.code = shapeCause i := by
  rcases checkOperands_cons_some h with h | ⟨_, h⟩
  · exact shapeCause_of_operand0 hops hfine hkind h
  · cases h

theorem shapeCause_two {i : Instr} {a b : Operand} {role0 role1 : Role} {c : Cause} (hops : i.abs.operands = [a, b])
    (hfine : operand0Fine i = role0.allows a)
    (hkind0 : (if isLeaq i then 4 else if isShift i then 3 else 2) = role0.kindCode) (hkind1 : role1.kindCode = 2)
    (h : checkOperands [role0, role1] [a, b] = some c) : c.code = shapeCause i := by
  rcases checkOperands_cons_some h with h | ⟨h0, h⟩
  · exact shapeCause_of_operand0 hops hfine hkind0 h
  rcases checkOperands_cons_some h with h | ⟨_, h⟩
  · exact shapeCause_of_operand1 hops (hfine.trans ((checkOperand_none_iff role0 a).mp h0)) hkind1 h
  · cases h

/-- R72, R160: the cause of the fault that the shape check finds. -/
theorem checkShape_code {i : Instr} {c : Cause} (h : checkShape i = some c) : c.code = shapeCause i := by
  cases i
  case incq | decq | negq | notq | sete | setne | setg | setge | setl | setle | popq => exact shapeCause_one rfl rfl rfl h
  case pushq | jmp | callq | je | jne | jg | jge | jl | jle => exact shapeCause_one rfl rfl rfl h
  case retq => cases h
  all_goals exact shapeCause_two rfl rfl rfl rfl h

/-! ## Malformed operands (R72, spec/60_exceptions.md R162) -/

/-- R72: an instruction that is not well formed takes a malformed-operand fault about its own address. -/
theorem exec_malformed {i : Instr} (s : State) (h : i.wellFormed = false) :
    execFaults i s .malformed (shapeCause i) (s.reg .rip - 4) := by
  have hbad : checkShape i ≠ none := by rw [Ne, checkShape_none_iff, h]; decide
  obtain ⟨c, hc⟩ := Option.ne_none_iff_exists'.mp hbad
  exact ⟨_, (exec_eq i s).trans (execute_shape _ hc), rfl, checkOperands_kind hc, checkShape_code hc, rfl, rfl, rfl⟩

/-- R160, R162: a well-formed instruction completes or takes an address-space fault. -/
theorem exec_wellFormed {i : Instr} {s : State} (h : i.wellFormed = true) (hr : s.runState = .running) :
    ∃ t, exec i s = .next t ∧ (t.runState = .running ∨ t.runState = .faulted ∧ t.faultKind = .address) := by
  cases hb : bodyOf i s with
  | ok t =>
    obtain ⟨_, ht, _⟩ := (bodyOf_touched hb).status
    exact ⟨t, exec_ok h hb, .inl (ht.trans hr)⟩
  | error e =>
    obtain ⟨t, ht, hf, hk, _⟩ := exec_error h hb
    exact ⟨t, ht, .inr ⟨hf, hk.trans (bodyOf_raised h hb).kind_code.1⟩⟩

/-- Settles O12: the shape check passes exactly the well-formed instructions, and it finds the first operand at fault. -/
theorem illFormedOperandsFault : Obligations.IllFormedOperandsFault := by
  unfold Obligations.IllFormedOperandsFault
  exact fun i s => ⟨exec_malformed s, exec_wellFormed⟩

end Sys2Proof.Machine
end

section
/-! SUPPORT. The step of the engine (spec/40_execution_core.md R80 to R82): when it is enabled (O9), what it runs (O6), and the
halt test that ends a completed step and a load (O10). -/

namespace Sys2Proof.Machine

open Sys2Proof.Safety

/-! ## When a step is enabled (R80) -/

/-- R80, R161: the fetch or the decoding faults, or the instruction is executed; a running engine steps in each case. -/
theorem exists_step_of_running {s : State} (hr : s.runState = .running) : ∃ t, step s = .next t := by
  cases hw : fetchCell s (s.reg .rip) with
  | error e =>
    obtain ⟨t, ht, _⟩ := step_of_fetch_error hr hw
    exact ⟨t, ht⟩
  | ok w =>
    cases hd : decode w with
    | error d =>
      obtain ⟨t, ht, _⟩ := step_of_decode_error hr hw hd
      exact ⟨t, ht⟩
    | ok i =>
      obtain ⟨_, _, ht⟩ := step_of_decode hr hw hd
      exact ⟨_, ht⟩

/-- R30 (log entry 1): neither a fault nor an instruction writes the parameters. -/
theorem step_params {s t : State} (h : step s = .next t) : t.params = s.params := by
  obtain ⟨_, ⟨e, opc, landed, rfl, hl⟩ | ⟨w, i, u, _, _, _, hb, rfl⟩⟩ := step_cases h
  · have same : ∀ u ∈ landed, u.params = s.params ∧ u.mem = s.mem := fun u hu => by
      rcases hl u hu with rfl | rfl <;> exact ⟨rfl, rfl⟩
    exact (raise_params_mem e _ opc same).1
  · obtain ⟨hp, _⟩ := (bodyOf_touched hb).status
    rw [haltTest_params, hp, State.advance_params]

/-- Settles O9: a running engine steps, and only a running one does (`step_cases`). -/
theorem stepEnabledOnlyWhenRunning : Obligations.StepEnabledOnlyWhenRunning := by
  unfold Obligations.StepEnabledOnlyWhenRunning
  refine fun s => ⟨fun hr => ?_, fun hr t ht => hr (step_cases ht).1⟩
  obtain ⟨t, ht⟩ := exists_step_of_running hr
  exact ⟨t, ht, step_params ht⟩

/-! ## The halt test (R81) -/

/-- R81: the test in one line. -/
theorem haltTest_eq_ite (s : State) :
    haltTest s = if s.runState = .running ∧ s.reg .rip = s.params.haltAddr then { s with runState := .halted } else s := by
  rcases haltTest_cases s with ⟨hr, hrip, he⟩ | ⟨hn, he⟩
  · rw [he, if_pos ⟨hr, hrip⟩]
  · rw [he, if_neg hn]

/-- R81: the test of a running machine makes `STATE` HALTED exactly at the sentinel. -/
theorem haltTest_halted_iff {s : State} (hr : s.runState = .running) :
    (haltTest s).runState = .halted ↔ (haltTest s).reg .rip = (haltTest s).params.haltAddr := by
  rw [haltTest_runState_of_running hr, haltTest_reg, haltTest_params]
  split
  · next hrip => exact iff_of_true rfl hrip
  · next hrip => exact iff_of_false nofun hrip

/-- R81: a step that completes ends with the halt test of a running machine. -/
theorem step_halted_iff {s t : State} (h : step s = .next t) (ht : t.runState ≠ .faulted) :
    t.runState = .halted ↔ t.reg .rip = t.params.haltAddr := by
  obtain ⟨hr, ⟨_, _, _, rfl, _⟩ | ⟨_, _, u, _, _, _, hb, rfl⟩⟩ := step_cases h
  · exact absurd rfl ht
  · obtain ⟨_, hu, _⟩ := (bodyOf_touched hb).status
    exact haltTest_halted_iff (hu.trans hr)

/-- R81, R181: a load ends with the halt test of a running machine. -/
theorem load_halted_iff {p : Params} {img : Image} {s : State} (h : load p img = .next s) :
    s.runState = .halted ↔ s.reg .rip = s.params.haltAddr := by
  rcases load_cases p img with ⟨_, _, hl⟩ | ⟨_, _, hl⟩ | ⟨_, hl⟩ <;> rw [hl] at h <;> cases h
  exact haltTest_halted_iff (by simp [State.initial])

/-- R80, R81: a halted engine has no further step. -/
theorem step_of_halted {s : State} (h : s.runState = .halted) : step s = .fault .halted := by rw [step, h]

/-- R201: the result of a halted engine is `x[0]`. -/
theorem readResult_of_halted {s : State} (h : s.runState = .halted) : readResult s = some (s.reg .rax) := by
  rw [readResult, h]

/-- Settles O10: a completed step and a load end with the halt test. -/
theorem haltedExactlyAtTheSentinel : Obligations.HaltedExactlyAtTheSentinel := by
  unfold Obligations.HaltedExactlyAtTheSentinel
  exact ⟨fun _ _ => step_halted_iff, fun _ _ _ => load_halted_iff, fun _ h => ⟨step_of_halted h, readResult_of_halted h⟩⟩

/-! ## What a step runs (R82) -/

/-- Settles O6: the head cell is fetched (O7), and the step of a word that decodes is `exec` and then the halt test. -/
theorem stepRunsDecodedInstruction : Obligations.StepRunsDecodedInstruction := by
  unfold Obligations.StepRunsDecodedInstruction
  intro s w i hr hbot htop hc hd
  obtain ⟨t, ht, hs⟩ := step_of_decode hr (fetchCell_head ⟨hbot, htop⟩ hc) hd
  exact ⟨t, ht, by rw [hs, haltTest_eq_ite]⟩

end Sys2Proof.Machine
end

section
/-! SUPPORT. Checked arithmetic (spec/40_execution_core.md R87, O18) and the conditions (R90, O35). -/

namespace Sys2Proof.Machine

/-! ## Checked arithmetic (R87) -/

/-- R87: a checked result is the word `r` of the exact result's low 64 bits, with the report that it does not fit. -/
theorem checked_eq {n : Int} {r : Word} (h : BitVec.ofInt 64 n = r) :
    checked n = (r, decide (¬(-2 ^ 63 ≤ n ∧ n < 2 ^ 63))) := by
  rw [checked, fits, h, decide_not, Bool.decide_and]

/-- R87: the one word whose negation does not fit is the least one. -/
theorem cneg_overflow_iff (d : Word) : (cneg d).2 = true ↔ d = 0x8000000000000000 := by
  have least : d = 0x8000000000000000 ↔ d.toInt = -2 ^ 63 := BitVec.toInt_inj.symm
  have lower : -2 ^ 63 ≤ d.toInt := BitVec.le_toInt d
  have upper : d.toInt < 2 ^ 63 := BitVec.toInt_lt
  rw [least, cneg, checked_eq rfl, decide_eq_true_iff]
  omega

/-- Settles O18 (decision D22): the low 64 bits of an exact sum, difference or product depend on those of its operands
alone. -/
theorem checkedArithmeticIsExact : Obligations.CheckedArithmeticIsExact := by
  unfold Obligations.CheckedArithmeticIsExact
  refine fun d s => ⟨checked_eq ?_, checked_eq ?_, checked_eq ?_, cneg_overflow_iff d, checked_eq ?_⟩
  · rw [BitVec.ofInt_add, BitVec.ofInt_toInt, BitVec.ofInt_toInt]
  · rw [Int.sub_eq_add_neg, BitVec.ofInt_add, BitVec.ofInt_neg, BitVec.ofInt_toInt, BitVec.ofInt_toInt,
      BitVec.sub_eq_add_neg]
  · rw [BitVec.ofInt_neg, BitVec.ofInt_toInt]
  · rw [BitVec.ofInt_mul, BitVec.ofInt_toInt, BitVec.ofInt_toInt]

/-! ## Conditions (R90, decision D18) -/

theorem condHolds_lt_ungated {p : Params} (f : Flags) (h : p.ltGatedByZf = false) :
    condHolds p f .lt = (f.SF != f.OF) := if_neg (by simp [h])

theorem condHolds_lt_gated {p : Params} (f : Flags) (h : p.ltGatedByZf = true) :
    condHolds p f .lt = ((f.SF != f.OF) && !f.ZF) := if_pos h

/-- R90: the gate changes `Lt` only where it would hold without it and ZF is set. -/
theorem condHolds_lt_gate_matters (p : Params) (f : Flags) :
    condHolds { p with ltGatedByZf := true } f .lt ≠ condHolds { p with ltGatedByZf := false } f .lt ↔
      f.SF ≠ f.OF ∧ f.ZF = true := by
  rw [condHolds_lt_gated f rfl, condHolds_lt_ungated f rfl]
  cases f.ZF <;> simp

/-- Settles O35: the definition of each condition, and the two forms of `Lt` beside the others. -/
theorem conditionsAreTabled : Obligations.ConditionsAreTabled := by
  unfold Obligations.ConditionsAreTabled
  refine fun p f => ⟨rfl, rfl, rfl, rfl, condHolds_lt_ungated f, condHolds_lt_gated f, rfl, fun h => ?_,
    condHolds_lt_gate_matters p f⟩
  rw [condHolds_lt_ungated f h]
  exact ⟨rfl, Bool.or_comm _ _⟩

end Sys2Proof.Machine
end

section
/-! SUPPORT. The instructions that read, modify and write their destination: what they complete with when their operands can be
read (spec/40_execution_core.md R84 to R86, R91), and so the logical ones (spec/42_logical.md, O21). -/

namespace Sys2Proof.Machine

open Sys2Proof.Safety

/-! ## Read-modify-write -/

/-- R86: an instruction that modifies a readable destination completes with the result and the flags of `f`. -/
theorem completesWith_of_modify1 {i : Instr} {s : State} {dst : Operand} {f : Word → Word × Flags}
    (hi : i.wellFormed = true) (hb : bodyOf i s = modify1 s dst f) (hd : dst.destination = true)
    (hdst : operandReadable s dst = true) :
    completesWith i s dst (f (operandValue s dst)).1 (f (operandValue s dst)).2 := by
  obtain ⟨t, ht, hwrote⟩ := modify1_wrote f hd hdst
  exact ⟨t, exec_ok hi (hb.trans ht), hwrote⟩

/-- R86: an instruction that reads a readable source and then modifies a readable destination completes with the result and
the flags of `f`. -/
theorem completesWith_of_modify2 {i : Instr} {s : State} {src dst : Operand} {f : Word → Word → Word × Flags}
    (hi : i.wellFormed = true) (hb : bodyOf i s = modify2 s src dst f) (hd : dst.destination = true)
    (hsrc : operandReadable s src = true) (hdst : operandReadable s dst = true) :
    completesWith i s dst (f (operandValue s dst) (operandValue s src)).1
      (f (operandValue s dst) (operandValue s src)).2 := by
  obtain ⟨t, ht, hwrote⟩ := modify2_wrote f hd hsrc hdst
  exact ⟨t, exec_ok hi (hb.trans ht), hwrote⟩

/-! ## Logic (R89, spec/42_logical.md R110 to R113) -/

theorem logicFlags_eq_flagsOfLogic (r : Word) : logicFlags r = flagsOfLogic r := by
  rw [logicFlags, flagsOfLogic, BitVec.msb_eq_getLsbD_last]
  rfl

/-- Settles O21: the logical instructions modify their destination with a logical result. -/
theorem logicalCompletes : Obligations.LogicalCompletes := by
  unfold Obligations.LogicalCompletes
  intro src dst s hs hd hsrc hdst d v
  have hwf : (src.anySource && dst.destination) = true := Bool.and_eq_true_iff.mpr ⟨hs, hd⟩
  simp only [← logicFlags_eq_flagsOfLogic]
  exact ⟨completesWith_of_modify1 (i := .notq dst) hd rfl hd hdst,
    completesWith_of_modify2 (i := .andq src dst) hwf rfl hd hsrc hdst,
    completesWith_of_modify2 (i := .orq src dst) hwf rfl hd hsrc hdst,
    completesWith_of_modify2 (i := .xorq src dst) hwf rfl hd hsrc hdst⟩

end Sys2Proof.Machine
end

section
/-! SUPPORT. The arithmetic instructions (spec/41_arithmetic.md, O19 and O20): a checked result, as O18 has it, with the flags
that it leaves. -/

namespace Sys2Proof.Machine

open Sys2Proof.Safety

/-! ## Checked results and their flags (R87, R88) -/

/-- R88: the sign and the zero flag are those of a logical result. -/
theorem arithFlags_eq_flagsOfExact {n : Int} {r : Word} {o : Bool} (h : o = decide (¬(-2 ^ 63 ≤ n ∧ n < 2 ^ 63))) :
    arithFlags r o = flagsOfExact n r := by
  have overflow : o = decide (n < -2 ^ 63 ∨ 2 ^ 63 ≤ n) := h.trans (decide_eq_decide.mpr (by omega))
  calc arithFlags r o
    _ = { logicFlags r with OF := o } := rfl
    _ = { flagsOfLogic r with OF := decide (n < -2 ^ 63 ∨ 2 ^ 63 ≤ n) } := by rw [logicFlags_eq_flagsOfLogic, overflow]
    _ = flagsOfExact n r := rfl

/-- R87, R88: a checked result that is exact leaves the flags of its exact value. -/
theorem arithResult_of_exact {c : Word × Bool} {n : Int} {r : Word}
    (h : c = (r, decide (¬(-2 ^ 63 ≤ n ∧ n < 2 ^ 63)))) : arithResult c = (r, flagsOfExact n r) := by
  rw [h, arithResult, arithFlags_eq_flagsOfExact rfl]

theorem arithResult_cadd (d v : Word) : arithResult (cadd d v) = (d + v, flagsOfExact (d.toInt + v.toInt) (d + v)) := by
  obtain ⟨exact_sum, _⟩ := checkedArithmeticIsExact d v
  exact arithResult_of_exact exact_sum

theorem arithResult_csub (d v : Word) : arithResult (csub d v) = (d - v, flagsOfExact (d.toInt - v.toInt) (d - v)) := by
  obtain ⟨_, exact_difference, _⟩ := checkedArithmeticIsExact d v
  exact arithResult_of_exact exact_difference

theorem arithResult_cneg (d : Word) : arithResult (cneg d) = (-d, flagsOfExact (-d.toInt) (-d)) := by
  obtain ⟨_, _, exact_negation, _⟩ := checkedArithmeticIsExact d 0
  exact arithResult_of_exact exact_negation

theorem arithResult_cmul (d v : Word) : arithResult (cmul d v) = (d * v, flagsOfExact (d.toInt * v.toInt) (d * v)) := by
  obtain ⟨_, _, _, _, exact_product⟩ := checkedArithmeticIsExact d v
  exact arithResult_of_exact exact_product

/-! ## The instructions (R100 to R105) -/

/-- R100 to R102: an instruction that modifies a readable destination by a checked operation. -/
theorem completesWith_of_arith1 {i : Instr} {s : State} {dst : Operand} {op : Word → Word × Bool} {n : Int} {r : Word}
    (hi : i.wellFormed = true) (hb : bodyOf i s = modify1 s dst fun d => arithResult (op d))
    (hd : dst.destination = true) (hdst : operandReadable s dst = true)
    (hop : arithResult (op (operandValue s dst)) = (r, flagsOfExact n r)) :
    completesWith i s dst r (flagsOfExact n r) := by
  have completes := completesWith_of_modify1 hi hb hd hdst
  rwa [hop] at completes

/-- R103 to R105: an instruction that modifies a readable destination by a checked operation with a readable source. -/
theorem completesWith_of_arith2 {i : Instr} {s : State} {src dst : Operand} {op : Word → Word → Word × Bool} {n : Int}
    {r : Word} (hi : i.wellFormed = true) (hb : bodyOf i s = modify2 s src dst fun d v => arithResult (op d v))
    (hd : dst.destination = true) (hsrc : operandReadable s src = true) (hdst : operandReadable s dst = true)
    (hop : arithResult (op (operandValue s dst) (operandValue s src)) = (r, flagsOfExact n r)) :
    completesWith i s dst r (flagsOfExact n r) := by
  have completes := completesWith_of_modify2 hi hb hd hsrc hdst
  rwa [hop] at completes

/-- Settles O19: INCQ and DECQ are the checked sum and difference with 1, NEGQ is the checked negation. -/
theorem unaryArithmeticCompletes : Obligations.UnaryArithmeticCompletes := by
  unfold Obligations.UnaryArithmeticCompletes
  intro dst s hd hdst d
  exact ⟨completesWith_of_arith1 (i := .incq dst) hd rfl hd hdst (arithResult_cadd d 1),
    completesWith_of_arith1 (i := .decq dst) hd rfl hd hdst (arithResult_csub d 1),
    completesWith_of_arith1 (i := .negq dst) hd rfl hd hdst (arithResult_cneg d)⟩

/-- Settles O20: ADDQ, SUBQ and IMULQ are the checked sum, difference and product of the destination with the source. -/
theorem binaryArithmeticCompletes : Obligations.BinaryArithmeticCompletes := by
  unfold Obligations.BinaryArithmeticCompletes
  intro src dst s hs hd hsrc hdst d v
  have hwf : (src.anySource && dst.destination) = true := Bool.and_eq_true_iff.mpr ⟨hs, hd⟩
  exact ⟨completesWith_of_arith2 (i := .addq src dst) hwf rfl hd hsrc hdst (arithResult_cadd d v),
    completesWith_of_arith2 (i := .subq src dst) hwf rfl hd hsrc hdst (arithResult_csub d v),
    completesWith_of_arith2 (i := .imulq src dst) hwf rfl hd hsrc hdst (arithResult_cmul d v)⟩

end Sys2Proof.Machine
end

section
/-! SUPPORT. The shift instructions (spec/43_shift.md R120 to R124, O22): the masked amount, the results as the shifts of bit
vectors, and the flags of the three cases of R124. -/

namespace Sys2Proof.Machine

open Sys2Proof.Safety

/-! ## Amounts, results and flags (R120 to R124) -/

/-- R120: an amount operand cannot fault; it is an immediate or a register. -/
theorem operandReadable_of_shiftAmount (s : State) {amt : Operand} (h : amt.shiftAmount = true) :
    operandReadable s amt = true := by
  cases amt with
  | imm i => rfl
  | reg r => rfl
  | ind m => cases h

/-- R120, D20: the low 6 bits of the amount are the amount modulo 64. -/
theorem shiftAmountOf_eq_mod (v : Word) : shiftAmountOf v = v.toNat % 64 := by
  rw [shiftAmountOf, BitVec.extractLsb'_toNat, Nat.shiftRight_zero]

/-- R121: the floor of the signed quotient. -/
theorem shiftValue_sar (d : Word) (a : Nat) : shiftValue .sar d a = d.sshiftRight a := by
  rw [shiftValue, BitVec.sshiftRight, Int.shiftRight_eq_div_pow]
  norm_cast

/-- R122: the low 64 bits of the product. -/
theorem shiftValue_shl (d : Word) (a : Nat) : shiftValue .shl d a = d <<< a := by
  rw [shiftValue, ← Nat.shiftLeft_eq]
  rfl

/-- R123: the floor of the unsigned quotient. -/
theorem shiftValue_shr (d : Word) (a : Nat) : shiftValue .shr d a = d >>> a := by
  rw [shiftValue, ← Nat.shiftRight_eq_div_pow, ← BitVec.toNat_ushiftRight, BitVec.ofNat_toNat, BitVec.setWidth_eq]

/-- R124: an amount of 0 keeps all three flags; any other leaves the sign and zero flags of a logical result. -/
theorem shiftFlags_eq_flagsOfShift (op : ShiftOp) (a : Nat) (d r : Word) (before : Flags) :
    shiftFlags op a d r before = flagsOfShift a r (shiftOverflow op d) before := by
  by_cases h0 : a = 0
  · subst h0; rfl
  · calc shiftFlags op a d r before
      _ = { logicFlags r with OF := if a = 1 then shiftOverflow op d else before.OF } := if_neg h0
      _ = { flagsOfLogic r with OF := if a = 1 then shiftOverflow op d else before.OF } := by
        rw [logicFlags_eq_flagsOfLogic]
      _ = flagsOfShift a r (shiftOverflow op d) before := by rw [flagsOfShift, if_neg h0, if_neg h0]; rfl

/-! ## The instructions (R121 to R123) -/

/-- R120, R124: a shift of a readable destination completes with its result `r` for the masked amount. -/
theorem completesWith_of_shift {i : Instr} {s : State} {amt dst : Operand} {op : ShiftOp} {r : Word}
    (hi : i.wellFormed = true) (hb : bodyOf i s = modify2 s amt dst fun d v => shiftResult op d v s.flags)
    (ha : amt.shiftAmount = true) (hd : dst.destination = true) (hdst : operandReadable s dst = true)
    (hr : shiftValue op (operandValue s dst) ((operandValue s amt).toNat % 64) = r) :
    completesWith i s dst r
      (flagsOfShift ((operandValue s amt).toNat % 64) r (shiftOverflow op (operandValue s dst)) s.flags) := by
  have completes := completesWith_of_modify2 hi hb hd (operandReadable_of_shiftAmount s ha) hdst
  rwa [shiftResult, shiftAmountOf_eq_mod, hr, shiftFlags_eq_flagsOfShift] at completes

/-- Settles O22: SARQ, SHLQ and SHRQ modify their destination with its shift by the amount modulo 64. -/
theorem shiftsComplete : Obligations.ShiftsComplete := by
  unfold Obligations.ShiftsComplete
  intro amt dst s ha hd hdst d a
  have hwf : (amt.shiftAmount && dst.destination) = true := Bool.and_eq_true_iff.mpr ⟨ha, hd⟩
  exact ⟨completesWith_of_shift (i := .sarq amt dst) hwf rfl ha hd hdst (shiftValue_sar d a),
    completesWith_of_shift (i := .shlq amt dst) hwf rfl ha hd hdst (shiftValue_shl d a),
    completesWith_of_shift (i := .shrq amt dst) hwf rfl ha hd hdst (shiftValue_shr d a)⟩

end Sys2Proof.Machine
end

section
/-! SUPPORT. The compare, data-movement and set-on-condition instructions (spec/44_compare_and_data.md R130 to R133, O23 to
O26): the last three complete with one write of their destination, which leaves the flags. -/

namespace Sys2Proof.Machine

open Sys2Proof.Safety

/-! ## Compare (R130, decision D24) -/

/-- Settles O23: CMPQ writes the flags of the checked difference and nothing else. -/
theorem compareCompletes : Obligations.CompareCompletes := by
  unfold Obligations.CompareCompletes
  intro src dst s hs hd hsrc hdst d v
  have hwf : (Instr.cmpq src dst).wellFormed = true := Bool.and_eq_true_iff.mpr ⟨hs, hd⟩
  have hb : bodyOf (.cmpq src dst) s = .ok (s.setFlags (flagsOfExact (d.toInt - v.toInt) (d - v))) := by
    rw [bodyOf, reading_ok (readOp_ok hsrc), reading_ok (readOp_ok hdst), arithResult_csub]
  exact ⟨_, exec_ok hwf hb, rfl, fun _ _ => rfl, fun _ => rfl, sameStatus_setFlags s _⟩

/-! ## A write that leaves the flags (R85, R91) -/

/-- R85, R91: an instruction whose `Execute` comes down to one write of a writable destination completes with the value
written and the old flags. -/
theorem completesWith_of_writing {i : Instr} {s : State} {dst : Operand} {v : Word} (hi : i.wellFormed = true)
    (hb : bodyOf i s = writing s dst v) (hdst : operandWritable s dst = true) : completesWith i s dst v s.flags := by
  obtain ⟨t, ht, hwrote⟩ := writing_wrote v hdst
  exact ⟨t, exec_ok hi (hb.trans ht), hwrote⟩

/-- Settles O24: MOVQ writes the value that it reads from its source. -/
theorem moveCompletes : Obligations.MoveCompletes := by
  unfold Obligations.MoveCompletes
  intro src dst s hs hd hsrc hdst
  have hwf : (Instr.movq src dst).wellFormed = true := Bool.and_eq_true_iff.mpr ⟨hs, hd⟩
  exact completesWith_of_writing hwf (reading_ok (readOp_ok hsrc) _) hdst

/-- Settles O25: LEAQ writes the effective address of its source, which R83 gives by the source's kind. -/
theorem loadAddressCompletes : Obligations.LoadAddressCompletes := by
  unfold Obligations.LoadAddressCompletes
  intro m dst s hm hd hdst
  have hwf : (Instr.leaq (.ind m) dst).wellFormed = true := Bool.and_eq_true_iff.mpr ⟨hm, hd⟩
  have completes : completesWith (.leaq (.ind m) dst) s dst (s.ea m) s.flags := completesWith_of_writing hwf rfl hdst
  cases m with
  | ind1 i => exact completes
  | ind2 r => exact completes
  | ind3 i r => exact completes

/-! ## Set on condition (R133, decision D25) -/

/-- R133: the mask keeps bits 63 to 8, and bits 7 to 0, which it clears, become the condition's. -/
theorem setLowByte_eq_mask (d : Word) (b : Bool) :
    setLowByte d b = (d &&& 0xFFFFFFFFFFFFFF00) ||| (if b then 1 else 0) := by
  have mask : (0xFFFFFFFFFFFFFF00 : Word) = BitVec.allOnes 56 ++ 0#8 := rfl
  have low : (if b then 1 else 0 : Word) = 0#56 ++ (if b then 1#8 else 0#8) := by cases b <;> rfl
  have parts : d.extractLsb' 8 56 ++ d.extractLsb' 0 8 = d :=
    (BitVec.extractLsb'_append_extractLsb'_eq_extractLsb' rfl).trans BitVec.extractLsb'_eq_self
  calc setLowByte d b
    _ = ((d.extractLsb' 8 56 ++ d.extractLsb' 0 8) &&& (BitVec.allOnes 56 ++ 0#8)) |||
        (0#56 ++ (if b then 1#8 else 0#8)) := by
      rw [BitVec.and_append, BitVec.or_append, BitVec.and_allOnes, BitVec.or_zero, BitVec.and_zero, BitVec.zero_or,
        setLowByte]
    _ = (d &&& 0xFFFFFFFFFFFFFF00) ||| (if b then 1 else 0) := by rw [parts, ← mask, ← low]

/-- R133: a SETcc of condition `c` completes on a readable destination. -/
theorem completesWith_of_setOnCond {i : Instr} {s : State} {dst : Operand} {c : Cond} (hi : i.wellFormed = true)
    (hb : bodyOf i s = setOnCond s c dst) (hd : dst.destination = true) (hdst : operandReadable s dst = true) :
    completesWith i s dst ((operandValue s dst &&& 0xFFFFFFFFFFFFFF00) ||| (if s.cond c then 1 else 0)) s.flags := by
  rw [← setLowByte_eq_mask]
  exact completesWith_of_writing hi (hb.trans (reading_ok (readOp_ok hdst) _)) (operandWritable_of_readable hd hdst)

/-- Settles O26: each SETcc writes back its destination with the low byte set to its condition. -/
theorem setOnConditionCompletes : Obligations.SetOnConditionCompletes := by
  unfold Obligations.SetOnConditionCompletes
  intro dst s hd hdst r
  exact ⟨completesWith_of_setOnCond (i := .sete dst) hd rfl hd hdst,
    completesWith_of_setOnCond (i := .setne dst) hd rfl hd hdst,
    completesWith_of_setOnCond (i := .setg dst) hd rfl hd hdst,
    completesWith_of_setOnCond (i := .setge dst) hd rfl hd hdst,
    completesWith_of_setOnCond (i := .setl dst) hd rfl hd hdst,
    completesWith_of_setOnCond (i := .setle dst) hd rfl hd hdst⟩

end Sys2Proof.Machine
end

section
/-! SUPPORT. The stack and control-transfer instructions (spec/45_stack_and_control.md R140 to R146): what a push and a pop
leave, the jumps (O29, O32), the instructions that use the stack (O27, O28, O30, O31), what undoes what (O33, O34), and the
faults of the stack accesses (O16). -/

namespace Sys2Proof.Machine

open Sys2Proof.Safety

/-! ## Registers that a run of writes leaves -/

theorem sameRegsBut_refl (rs : List Reg) (s : State) : sameRegsBut rs s s := fun _ _ => rfl

/-- A write of a listed register leaves the others. -/
theorem sameRegsBut_setReg {rs : List Reg} {s t : State} (h : sameRegsBut rs s t) {r : Reg} (hr : r ∈ rs) (v : Word) :
    sameRegsBut rs s (t.setReg r v) := by
  intro q hq
  have hne : q ≠ r := fun he => hq (he ▸ hr)
  rw [State.setReg_reg, if_neg hne, h q hq]

/-! ## Push and pop (R140, R141) -/

/-- R140, R143: a push whose new `rsp` is a valid address stores the word there; `rsp` and the 8 cells are all it writes. -/
theorem pushWord_stored {s : State} (v : Word) (h : inWindow8 s.params (s.reg .rsp - 8) = true) :
    ∃ t, pushWord s v = .ok t ∧ t.reg .rsp = s.reg .rsp - 8 ∧ sameRegsBut [.rsp] s t ∧
      storedWord s t (s.reg .rsp - 8) v ∧ t.flags = s.flags ∧ sameStatus s t := by
  obtain ⟨t, ht, hstored, hregs, hflags, hstatus⟩ :=
    memWrite_storedWord (s := s.setReg .rsp (s.reg .rsp - 8)) v h
  have hreg (q : Reg) : t.reg q = (s.setReg .rsp (s.reg .rsp - 8)).reg q := congrArg (·.get q) hregs
  refine ⟨t, ?_, by simp [hreg], fun q hq => ?_, hstored, hflags, hstatus⟩
  · simp only [pushWord, State.setReg_reg, if_true, ht]
  · rw [hreg, sameRegsBut_setReg (sameRegsBut_refl _ _) List.mem_cons_self _ q hq]

/-- R140, R143, R161: a push whose new `rsp` is no valid address has decremented `rsp` when its store faults. -/
theorem pushWord_outside {s : State} (v : Word) (h : inWindow8 s.params (s.reg .rsp - 8) = false) :
    pushWord s v = .error ⟨⟨.writeWindow, s.reg .rsp - 8⟩, [s.setReg .rsp (s.reg .rsp - 8)]⟩ := by
  have hw := memWrite_outside (s := s.setReg .rsp (s.reg .rsp - 8)) v h
  simp only [pushWord, State.setReg_reg, if_true, hw]

theorem readingStack_error {s : State} (h : readable s (s.reg .rsp) = false) (k : Word → Except Stop State) :
    readingStack s k =
      .error ⟨⟨if inWindow8 s.params (s.reg .rsp) then .readInsnCell else .readWindow, s.reg .rsp⟩, []⟩ := by
  rw [readingStack, memRead_error h]

theorem releaseWord_rsp (s : State) : (releaseWord s).reg .rsp = s.reg .rsp + 8 := by
  rw [releaseWord, State.setReg_reg, if_pos rfl]

theorem releaseWord_reg_of_ne (s : State) {q : Reg} (h : q ≠ .rsp) : (releaseWord s).reg q = s.reg q := by
  rw [releaseWord, State.setReg_reg, if_neg h]

/-- R141 (decision D26): a pop writes its destination from the state before the pop, and then releases the word. -/
theorem popInto_ok {s t : State} {dst : Operand} (hread : readable s (s.reg .rsp) = true)
    (h : writing s dst (s.wordAt (s.reg .rsp).toNat) = .ok t) : popInto s dst = .ok (releaseWord t) := by
  rw [popInto, readingStack_ok hread, h]

/-! ## Jumps (R142, R145, R146) -/

/-- `exec i s` answers a next state that differs from `s` in that `rip` is `target`. -/
def jumpsTo (i : Instr) (s : State) (target : Word) : Prop :=
  ∃ t, exec i s = .next t ∧ t.reg .rip = target ∧ sameRegsBut [.rip] s t ∧ sameMemory s t ∧ t.flags = s.flags ∧
    sameStatus s t

theorem jumpsTo_of_jump {i : Instr} {s : State} {target : Word} (hi : i.wellFormed = true)
    (hb : bodyOf i s = .ok (s.jump target)) : jumpsTo i s target := by
  refine ⟨s.jump target, exec_ok hi hb, ?_, ?_, fun _ => rfl, rfl, sameStatus_setReg s _ _⟩
  · rw [State.jump, State.setReg_reg, if_pos rfl]
  · exact sameRegsBut_setReg (sameRegsBut_refl _ _) List.mem_cons_self _

/-- R145 (decision D27): a jump that is not taken is one to the address that `rip` holds. -/
theorem jumpOnCond_ok {s : State} {tgt : Operand} (c : Cond) (h : operandReadable s tgt = true) :
    jumpOnCond s c tgt = .ok (s.jump (if s.cond c then operandValue s tgt else s.reg .rip)) := by
  rw [jumpOnCond, reading_ok (readOp_ok h)]
  cases s.cond c with
  | true => rfl
  | false => exact congrArg Except.ok (State.setReg_self s .rip).symm

/-- R145: a Jcc of condition `c` completes on a readable target. -/
theorem jumpsTo_of_jumpOnCond {i : Instr} {s : State} {tgt : Operand} {c : Cond} (hi : i.wellFormed = true)
    (hb : bodyOf i s = jumpOnCond s c tgt) (h : operandReadable s tgt = true) :
    jumpsTo i s (if s.cond c then operandValue s tgt else s.reg .rip) :=
  jumpsTo_of_jump hi (hb.trans (jumpOnCond_ok c h))

/-- Settles O29: JMP jumps to the value of its target. -/
theorem jumpCompletes : Obligations.JumpCompletes := by
  unfold Obligations.JumpCompletes
  intro tgt s hwf hread
  exact jumpsTo_of_jump (i := .jmp tgt) hwf (reading_ok (readOp_ok hread) _)

/-- Settles O32: each Jcc jumps on its condition. -/
theorem conditionalJumpCompletes : Obligations.ConditionalJumpCompletes := by
  unfold Obligations.ConditionalJumpCompletes
  intro tgt s hwf hread jumps
  exact ⟨jumpsTo_of_jumpOnCond (i := .je tgt) hwf rfl hread,
    jumpsTo_of_jumpOnCond (i := .jne tgt) hwf rfl hread,
    jumpsTo_of_jumpOnCond (i := .jg tgt) hwf rfl hread,
    jumpsTo_of_jumpOnCond (i := .jge tgt) hwf rfl hread,
    jumpsTo_of_jumpOnCond (i := .jl tgt) hwf rfl hread,
    jumpsTo_of_jumpOnCond (i := .jle tgt) hwf rfl hread⟩

/-! ## The instructions that use the stack (R140, R141, R143, R144) -/

/-- Settles O27: PUSHQ pushes the value that it reads first. -/
theorem pushCompletes : Obligations.PushCompletes := by
  unfold Obligations.PushCompletes
  intro src s hwf hread hwin
  obtain ⟨t, ht, pushed⟩ := pushWord_stored (operandValue s src) hwin
  exact ⟨t, exec_ok (i := .pushq src) hwf ((reading_ok (readOp_ok hread) _).trans ht), pushed⟩

/-- Settles O30: CALLQ pushes the advanced `rip` and jumps to the target that it reads first. -/
theorem callCompletes : Obligations.CallCompletes := by
  unfold Obligations.CallCompletes
  intro tgt s hwf hread hwin
  obtain ⟨t, ht, hrsp, hregs, hstored, hflags, hstatus⟩ := pushWord_stored (s.reg .rip) hwin
  have hb : bodyOf (.callq tgt) s = .ok (t.jump (operandValue s tgt)) := by
    rw [bodyOf, reading_ok (readOp_ok hread), callTo, ht]
  have hregs' : sameRegsBut [.rip, .rsp] s t := fun q hq => hregs q (List.not_mem_of_not_mem_cons hq)
  refine ⟨_, exec_ok (i := .callq tgt) hwf hb, ?_, ?_, sameRegsBut_setReg hregs' (by simp) _, hstored, hflags, hstatus⟩
  · rw [State.jump, State.setReg_reg, if_pos rfl]
  · rw [State.jump, State.setReg_reg, if_neg (by decide), hrsp]

/-- Settles O31: RETQ jumps to the word at `rsp` and releases it. -/
theorem returnCompletes : Obligations.ReturnCompletes := by
  unfold Obligations.ReturnCompletes
  intro s hread
  refine ⟨_, exec_ok (i := .retq) rfl (readingStack_ok hread _), ?_, ?_, ?_, fun _ => rfl, rfl, sameStatus.refl s⟩
  · rw [releaseWord_reg_of_ne _ (by decide), State.jump, State.setReg_reg, if_pos rfl]
  · rw [releaseWord_rsp, State.jump, State.setReg_reg, if_neg (by decide)]
  · exact sameRegsBut_setReg (sameRegsBut_setReg (sameRegsBut_refl _ _) (by simp) _) (by simp) _

/-- R141: a pop into a register writes the register and then raises `rsp`. -/
theorem exec_popq_reg {s : State} {r : Reg} (hr : r ≠ .rip) (hread : readable s (s.reg .rsp) = true) :
    exec (.popq (.reg r)) s = .next (releaseWord (s.setReg r (s.wordAt (s.reg .rsp).toNat))) :=
  exec_ok (i := .popq (.reg r)) (bne_iff_ne.mpr hr) (popInto_ok (dst := .reg r) hread rfl)

/-- Settles O28: the three kinds of destination; only a pop into `rsp` changes what the increment starts from. -/
theorem popCompletes : Obligations.PopCompletes := by
  unfold Obligations.PopCompletes
  intro s hread v
  refine ⟨fun r hrip hrsp => ?_, ?_, fun m hm hwin => ?_⟩
  · refine ⟨_, exec_popq_reg hrip hread, ?_, ?_, ?_, fun _ => rfl, rfl, sameStatus.refl s⟩
    · rw [releaseWord_reg_of_ne _ hrsp, State.setReg_reg, if_pos rfl]
    · rw [releaseWord_rsp, State.setReg_reg, if_neg hrsp.symm]
    · exact sameRegsBut_setReg (sameRegsBut_setReg (sameRegsBut_refl _ _) (by simp) _) (by simp) _
  · refine ⟨_, exec_popq_reg (by decide) hread, ?_, ?_, fun _ => rfl, rfl, sameStatus.refl s⟩
    · rw [releaseWord_rsp, State.setReg_reg, if_pos rfl]
    · exact sameRegsBut_setReg (sameRegsBut_setReg (sameRegsBut_refl _ _) (by simp) _) (by simp) _
  · obtain ⟨t, ht, ⟨hregs, hstored⟩, hflags, hstatus⟩ := writing_wrote (op := .ind m) v hwin
    have hreg (q : Reg) : t.reg q = s.reg q := hregs q List.not_mem_nil
    refine ⟨_, exec_ok (i := .popq (.ind m)) hm (popInto_ok hread ht), ?_, ?_, hstored, hflags, hstatus⟩
    · rw [releaseWord_rsp, hreg]
    · exact sameRegsBut_setReg (fun q _ => hreg q) (by simp) _

/-! ## A pop after a push, a return after a call -/

/-- After a push of `v` the next instruction can read the stack, finds `v` there, and by releasing it brings `rsp` back. -/
theorem stack_after_push {s t : State} {v : Word} (hwin : inWindow8 s.params (s.reg .rsp - 8) = true)
    (hrsp : t.reg .rsp = s.reg .rsp - 8) (hstored : storedWord s t (s.reg .rsp - 8) v) (hstatus : sameStatus s t) :
    readable t.advance (t.advance.reg .rsp) = true ∧ t.advance.wordAt (t.advance.reg .rsp).toNat = v ∧
      t.advance.reg .rsp + 8 = s.reg .rsp := by
  have htop : t.advance.reg .rsp = s.reg .rsp - 8 := by rw [State.advance_reg, if_neg (by decide), hrsp]
  have hstored' : storedWord s t.advance (s.reg .rsp - 8) v := hstored
  obtain ⟨hparams, _⟩ := hstatus
  have hwin' : inWindow8 t.advance.params (s.reg .rsp - 8) = true := by rw [State.advance_params, hparams, hwin]
  rw [htop]
  exact ⟨readable_of_storedWord hwin' hstored', wordAt_of_storedWord hstored', BitVec.sub_add_cancel _ _⟩

/-- Settles O33: the pop finds the pushed value (O27, O28); `rip` alone ends elsewhere, at the instruction after the pop. -/
theorem pushThenPopRestores : Obligations.PushThenPopRestores := by
  unfold Obligations.PushThenPopRestores
  intro s r hrip hrsp hwin
  obtain ⟨t, ht, htrsp, htregs, hstored, htflags, hstatus⟩ := pushCompletes (.reg r) s (bne_iff_ne.mpr hrip) rfl hwin
  obtain ⟨hread, hword, htop⟩ := stack_after_push hwin htrsp hstored hstatus
  obtain ⟨intoReg, _⟩ := popCompletes t.advance hread
  obtain ⟨u, hu, hur, hursp, huregs, _, huflags, _⟩ := intoReg r hrip hrsp
  refine ⟨t, u, ht, hu, huflags.trans htflags, fun q hq => ?_, ?_⟩
  · by_cases hqr : q = r
    · rw [hqr, hur, hword, operandValue]
    · by_cases hqs : q = .rsp
      · rw [hqs, hursp, htop]
      · rw [huregs q (by simp [hqr, hqs]), State.advance_reg, if_neg hq, htregs q (by simp [hqs])]
  · rw [huregs .rip (by simp [hrip.symm]), State.advance_reg, if_pos rfl, htregs .rip (by decide)]
    rfl

/-- Settles O34: the return finds the pushed `rip` (O30, O31). -/
theorem callThenReturnResumes : Obligations.CallThenReturnResumes := by
  unfold Obligations.CallThenReturnResumes
  intro s tgt hwf hread hwin
  obtain ⟨t, ht, htrip, htrsp, htregs, hstored, htflags, hstatus⟩ := callCompletes tgt s hwf hread hwin
  obtain ⟨hreadTop, hword, htop⟩ := stack_after_push hwin htrsp hstored hstatus
  obtain ⟨u, hu, hurip, hursp, huregs, _, huflags, _⟩ := returnCompletes t.advance hreadTop
  refine ⟨t, u, ht, htrip, hu, huflags.trans htflags, fun q => ?_⟩
  by_cases hqp : q = .rip
  · rw [hqp, hurip, hword]
  · by_cases hqs : q = .rsp
    · rw [hqs, hursp, htop]
    · rw [huregs q (by simp [hqp, hqs]), State.advance_reg, if_neg hqp, htregs q (by simp [hqp, hqs])]

/-! ## Stack accesses that fault (R42, R43) -/

/-- R141, R144: an instruction whose `Execute` begins with reading the stack takes the fault of that read. -/
theorem execFaults_of_unreadable_stack {i : Instr} {s : State} {k : Word → Except Stop State}
    (hi : i.wellFormed = true) (hb : bodyOf i s = readingStack s k) (h : readable s (s.reg .rsp) = false) :
    execFaults i s .address (if inWindow8 s.params (s.reg .rsp) then 5 else 3) (s.reg .rsp) := by
  have hf := exec_error hi (hb.trans (readingStack_error h k))
  cases hwin : inWindow8 s.params (s.reg .rsp) <;> rw [hwin] at hf <;> exact hf

/-- Settles O16: a push or a call reads its operand and then stores; a pop or a return reads the stack first. -/
theorem stackAccessFaults : Obligations.StackAccessFaults := by
  unfold Obligations.StackAccessFaults
  refine fun s => ⟨fun hwin op hwf hread => ⟨?_, ?_⟩, fun hread => ⟨?_, fun dst hwf => ?_⟩⟩
  · exact exec_error (i := .pushq op) hwf ((reading_ok (readOp_ok hread) _).trans (pushWord_outside _ hwin))
  · have hb : bodyOf (.callq op) s =
        .error ⟨⟨.writeWindow, s.reg .rsp - 8⟩, [s.setReg .rsp (s.reg .rsp - 8)]⟩ := by
      rw [bodyOf, reading_ok (readOp_ok hread), callTo, pushWord_outside _ hwin]
    exact exec_error (i := .callq op) hwf hb
  · exact execFaults_of_unreadable_stack (i := .retq) rfl rfl hread
  · exact execFaults_of_unreadable_stack (i := .popq dst) hwf rfl hread

end Sys2Proof.Machine
end

section
/-! SUPPORT. Faults as a whole (spec/60_exceptions.md): the codes of the faults (R160, O17), and what a step that faults
records and leaves (R161, R163, O11). -/

namespace Sys2Proof.Machine

/-! ## Codes (R160) -/

/-- Settles O17: `Cause.kind` and `Cause.code` are the table of decision D30. -/
theorem faultCodesAreTabled : Obligations.FaultCodesAreTabled := rfl

/-! ## The opcode a fault records (R161) -/

/-- R161, R162: an instruction that makes `STATE` FAULTED records its opcode number, whether its shape or an access of its
`Execute` is at fault. -/
theorem exec_faulted_opc {i : Instr} {s t : State} (hr : s.runState ≠ .faulted) (h : exec i s = .next t)
    (ht : t.runState = .faulted) : t.faultOpc = i.abs.op.num := by
  rw [exec_eq] at h
  rcases execute_cases i s (bodyOf i s) with ⟨c, _, hx⟩ | ⟨_, u, hb, hx⟩ | ⟨_, e, _, hx⟩ <;>
    obtain rfl := Host.Outcome.next.inj (hx.symm.trans h)
  · exact raise_faultOpc ..
  · obtain ⟨_, hu, _⟩ := (bodyOf_touched hb).status
    exact absurd (hu.symm.trans ht) hr
  · exact raise_faultOpc ..

/-- R81: the halt test makes no machine FAULTED. -/
theorem haltTest_faulted {s : State} (h : (haltTest s).runState = .faulted) : s.runState = .faulted := by
  rcases haltTest_cases s with ⟨_, _, he⟩ | ⟨_, he⟩ <;> rw [he] at h
  · cases h
  · exact h

/-- R161: a step whose fetch fails records no opcode. -/
theorem step_opc_of_fetch_error {s t : State} {e : Raised} (h : step s = .next t)
    (hw : fetchCell s (s.reg .rip) = .error e) : t.faultOpc = 0 := by
  obtain ⟨u, hu, _, _, _, _, _, hopc⟩ := step_of_fetch_error (step_cases h).1 hw
  rw [Host.Outcome.next.inj (h.symm.trans hu), hopc]

/-- R161: a step that faults after its fetch, in the decoding or in the instruction, records bits 7 to 0 of the word. -/
theorem step_faulted_opc {s t : State} {w : HeadWord} (h : step s = .next t) (ht : t.runState = .faulted)
    (hw : fetchCell s (s.reg .rip) = .ok w) : t.faultOpc = HeadWord.opc w := by
  have hr : s.runState = .running := (step_cases h).1
  cases hd : decode w with
  | error d =>
    obtain ⟨u, hu, _, _, _, _, _, hopc⟩ := step_of_decode_error hr hw hd
    rw [Host.Outcome.next.inj (h.symm.trans hu), hopc]
  | ok i =>
    obtain ⟨u, hu, hs⟩ := step_of_decode hr hw hd
    obtain rfl := Host.Outcome.next.inj (hs.symm.trans h)
    rw [haltTest_faultOpc, exec_faulted_opc (by simp [hr]) hu (haltTest_faulted ht), decode_opc hd]

/-! ## What a fault leaves (R161, decision D29) -/

/-- R161: the registers that a fault leaves are those of the start of the step, or of the state after the `rip` advance, or
of the state after `rsp` has also been lowered. -/
theorem raise_regs_of_landed (e : Raised) (pc0 : Word) (opc : Byte) {s : State} {landed : List State}
    (h : ∀ u ∈ landed, u = s.advance ∨ u = s.advance.setReg .rsp (s.reg .rsp - 8)) :
    (raise e pc0 opc s landed).regs = s.regs ∨ (raise e pc0 opc s landed).regs = s.advance.regs ∨
      (raise e pc0 opc s landed).regs = (s.advance.setReg .rsp (s.reg .rsp - 8)).regs := by
  rw [raise_regs]
  rcases List.mem_cons.mp (faultBase_mem s landed) with hb | hb
  · exact .inl (by rw [hb])
  · exact .inr ((h _ hb).imp (congrArg State.regs) (congrArg State.regs))

/-! ## A faulted engine (R163, R201) -/

/-- R80, R163: a faulted engine has no further step. -/
theorem step_of_faulted {s : State} (h : s.runState = .faulted) : step s = .fault .faulted := by rw [step, h]

/-- R201: a faulted engine has no result. -/
theorem readResult_of_faulted {s : State} (h : s.runState = .faulted) : readResult s = none := by rw [readResult, h]

/-- Settles O11: a step that faults is one `raise` (`step_cases`), over the start of the step or a state it went through,
and none of these has other flags or memory. -/
theorem faultRecordsAndKeepsAPrefix : Obligations.FaultRecordsAndKeepsAPrefix := by
  unfold Obligations.FaultRecordsAndKeepsAPrefix
  intro s t h ht
  have hopc := fun w => step_faulted_opc (w := w) h ht
  have hnoOpc := fun e => step_opc_of_fetch_error (e := e) h
  obtain ⟨hr, ⟨e, opc, landed, rfl, hl⟩ | ⟨_, _, u, _, _, _, hb, rfl⟩⟩ := step_cases h
  · have hmem : ∀ u ∈ landed, u.params = s.params ∧ u.mem = s.mem := fun u hu => by
      rcases hl u hu with rfl | rfl <;> exact ⟨rfl, rfl⟩
    have hflags : ∀ u ∈ landed, u.flags = s.flags := fun u hu => by
      rcases hl u hu with rfl | rfl <;> rfl
    exact ⟨raise_faultIp .., hopc, hnoOpc, step_of_faulted ht, readResult_of_faulted ht,
      raise_flags_of_landed e _ opc hflags, (raise_params_mem e _ opc hmem).2, raise_regs_of_landed e _ opc hl⟩
  · obtain ⟨_, hu, _⟩ := (bodyOf_touched hb).status
    have running : u.runState = .running := hu.trans hr
    rw [haltTest_faulted ht] at running
    cases running

end Sys2Proof.Machine
end

section
/-! SUPPORT. The loader (spec/70_reset_and_hazards.md R180 to R184): what every cell holds after a load (O49), when a load is
refused (O50), and the reset state as a load (O52). -/

namespace Sys2Proof.Machine

/-! ## The segments a load writes (R181, R183) -/

/-- R183: the cells that the text segment covers hold heads and fillers; the others are kept. -/
theorem setCells_text_cell (s : State) (a b : Nat) (img : Image) :
    (s.setCells a img.textCells).cell b =
      if a ≤ b ∧ b < a + 4 * img.text.length then
        if (b - a) % 4 = 0 then .head (img.text.getD ((b - a) / 4) 0) else .filler
      else s.cell b := by
  rw [State.setCells_cell, Image.textCells, flatMap_instrCells_getElem?]
  by_cases hlo : a ≤ b
  · by_cases hhi : b - a < 4 * img.text.length
    · have hin : a ≤ b ∧ b < a + 4 * img.text.length := by omega
      rw [if_pos hlo, if_pos hhi, if_pos hin, Option.getD_some]
    · rw [if_pos hlo, if_neg hhi, if_neg (by omega), Option.getD_none]
  · rw [if_neg hlo, if_neg (by omega)]

/-- R183: the cells that the data segment covers hold its bytes; the others are kept. -/
theorem setCells_data_cell (s : State) (a b : Nat) (img : Image) :
    (s.setCells a img.dataCells).cell b =
      if a ≤ b ∧ b < a + img.data.length then .byte (img.data.getD (b - a) 0) else s.cell b := by
  rw [State.setCells_cell, Image.dataCells, List.getElem?_map]
  by_cases hlo : a ≤ b
  · by_cases hhi : b - a < img.data.length
    · rw [if_pos hlo, if_pos (by omega), List.getD_eq_getElem?_getD, List.getElem?_eq_getElem hhi]
      rfl
    · rw [if_pos hlo, if_neg (by omega), List.getElem?_eq_none (by omega)]
      rfl
  · rw [if_neg hlo, if_neg (by omega)]

/-- R181, R184: the cells of the window after a load; a segment that reaches the sentinel word is overwritten there. -/
theorem loaded_cell {p : Params} (img : Image) {a : Nat} (ha : a < p.memTop) :
    (loaded p img).cell a =
      if p.memTop - 8 ≤ a then .byte (byteOf p.haltAddr (a - (p.memTop - 8)))
      else if img.dataPos.toNat ≤ a ∧ a < img.dataPos.toNat + img.data.length then
        .byte (img.data.getD (a - img.dataPos.toNat) 0)
      else if img.textPos.toNat ≤ a ∧ a < img.textPos.toNat + 4 * img.text.length then
        (if (a - img.textPos.toNat) % 4 = 0 then .head (img.text.getD ((a - img.textPos.toNat) / 4) 0) else .filler)
      else .byte 0 := by
  rw [loaded, haltTest_cell, sentinelCells, setCells_quad_cell]
  by_cases hsent : p.memTop - 8 ≤ a
  · rw [if_pos hsent, if_pos ⟨hsent, by omega⟩]
  · rw [if_neg hsent, if_neg fun h => hsent h.1, setCells_data_cell, setCells_text_cell, State.initial_cell,
      resetCell_below_sentinel (Nat.lt_of_not_le hsent)]

/-- Settles O49: a load writes only cells, so the registers, flags and status registers are those of `State.initial`, up to
the halt test. -/
theorem loadBuildsTheInitialState : Obligations.LoadBuildsTheInitialState := by
  unfold Obligations.LoadBuildsTheInitialState
  intro p img hok hfit
  have hload : load p img = .next (loaded p img) := by rw [load, if_pos hok, if_pos hfit]
  have hreg : ∀ r, (loaded p img).reg r = (State.initial p img.entry).reg r := fun r => by simp [loaded]
  have hrun : (loaded p img).runState = if img.entry = p.haltAddr then .halted else .running := by
    rw [loaded, haltTest_runState_of_running (by simp [State.initial])]
    simp only [State.setCells_reg, State.setCells_params, State.initial_reg, if_true]
    rfl
  refine ⟨loaded p img, hload, ?_, ?_, fun r => (hreg r).trans (State.initial_reg ..), hrun, ?_, ?_, ?_, ?_, ?_,
    fun a _ ha => loaded_cell img ha⟩
  all_goals simp [loaded, State.initial]

/-- Settles O50: among legal parameters the only refusal is that of an image with a segment outside the window. -/
theorem loadRefusesWhatDoesNotFit : Obligations.LoadRefusesWhatDoesNotFit := by
  unfold Obligations.LoadRefusesWhatDoesNotFit
  intro p img hok
  have hrefused : load p img = .refused .imageDoesNotFit ↔ ¬ fitsWindow p img = true := by
    rcases load_cases p img with ⟨_, hfit, hl⟩ | ⟨_, hfit, hl⟩ | ⟨hbad, _⟩
    · simp [hl, hfit]
    · simp [hl, hfit]
    · simp [hok] at hbad
  rw [hrefused, fitsWindow_iff, Image.textCells_length, Image.dataCells_length, and_assoc]

/-! ## The image that holds nothing (R180, log entry 2) -/

/-- Writing what unlisted cells read as anyway lists nothing. -/
theorem setCells_resetCell {s : State} (hmem : s.mem = []) {a : Nat} {cs : List SymByte}
    (h : ∀ i (hi : i < cs.length), cs[i] = resetCell s.params (a + i)) : s.setCells a cs = s := by
  induction cs generalizing a with
  | nil => rfl
  | cons c rest ih =>
    have hc : c = resetCell s.params a := h 0 (Nat.succ_pos _)
    have hset : s.setCell a c = s := by
      rw [State.setCell, Memory.set, if_pos hc, hmem, Memory.erase, ← hmem]
    rw [State.setCells, hset]
    refine ih fun i hi => ?_
    rw [Nat.add_right_comm]
    exact h (i + 1) (Nat.succ_lt_succ hi)

/-- R181: the sentinel word that a load writes is what its cells read as before. -/
theorem sentinelCells_eq_resetCell {p : Params} (hok : p.ok = true) (i : Nat) (hi : i < (sentinelCells p).length) :
    (sentinelCells p)[i] = resetCell p (p.memTop - 8 + i) := by
  have hi8 : i < 8 := by simpa using hi
  obtain ⟨_, hroom⟩ := Params.sentinel_fits hok
  rw [resetCell, if_pos (by omega), Nat.add_sub_cancel_left]
  simp [sentinelCells, quadBytes]

/-- R181: a load of nothing leaves the initial state, after the halt test. -/
theorem loaded_emptyImage {p : Params} (hok : p.ok = true) :
    loaded p (emptyImage p) = haltTest (State.initial p (BitVec.ofNat 64 p.memBot)) :=
  congrArg haltTest (setCells_resetCell (s := State.initial p _) rfl (sentinelCells_eq_resetCell hok))

/-- Settles O52: a load of nothing only tests for the halt, and the reset state does not meet that test. -/
theorem resetIsALoad : Obligations.ResetIsALoad := by
  unfold Obligations.ResetIsALoad
  have hok : Params.default.ok = true := by decide
  rw [load, if_pos hok, if_pos (by decide), loaded_emptyImage hok]
  exact congrArg _ haltTest_reset

end Sys2Proof.Machine
end

section
/-! SUPPORT. The host's operations (spec/70_reset_and_hazards.md R200, R201): STEP, RUN(n) and READ_RESULT (O53). -/

namespace Sys2Proof.Machine

/-- R80: a machine that has a step is RUNNING. -/
theorem running_of_step {s t : State} (h : step s = .next t) : s.runState = .running := (step_cases h).1

theorem hostStep_of_step {s t : State} (h : step s = .next t) : hostStep s = t := by
  rw [hostStep, running_of_step h, h]

theorem hostRun_succ_of_running {s : State} (h : s.runState = .running) (n : Nat) :
    hostRun (n + 1) s = hostRun n (hostStep s) := by rw [hostRun, h]

/-- R200: RUN(1) is STEP. -/
theorem hostRun_one (s : State) : hostRun 1 s = hostStep s := by
  by_cases h : s.runState = .running
  · rw [hostRun_succ_of_running h, hostRun]
  · rw [hostRun_of_not_running h, hostStep_of_not_running h]

/-- R200: a bounded run in two parts; a machine that stops in the first is left alone by the second. -/
theorem hostRun_add (s : State) (m n : Nat) : hostRun (m + n) s = hostRun n (hostRun m s) := by
  induction m generalizing s with
  | zero => rw [Nat.zero_add, hostRun]
  | succ m ih =>
    by_cases h : s.runState = .running
    · rw [Nat.succ_add, hostRun_succ_of_running h, hostRun_succ_of_running h, ih]
    · simp only [hostRun_of_not_running h]

/-- R201: a machine that is not HALTED has no result. -/
theorem readResult_of_not_halted {s : State} (h : s.runState ≠ .halted) : readResult s = none := by
  unfold readResult
  split
  · next h' => exact absurd h' h
  · rfl

theorem readResult_eq_some (s : State) (v : Word) : readResult s = some v ↔ s.runState = .halted ∧ v = s.reg .rax := by
  by_cases h : s.runState = .halted
  · simp [readResult_of_halted h, h, eq_comm]
  · simp [readResult_of_not_halted h, h]

/-- Settles O53: `hostRun_add` is by induction on the first part of the run. -/
theorem hostRunsAreBoundedSteps : Obligations.HostRunsAreBoundedSteps := by
  unfold Obligations.HostRunsAreBoundedSteps
  exact ⟨fun _ n h => ⟨hostStep_of_not_running h, hostRun_of_not_running h n⟩, fun _ _ => hostStep_of_step,
    fun s => ⟨rfl, hostRun_one s⟩, fun _ n h => hostRun_succ_of_running h n, hostRun_add, readResult_eq_some⟩

end Sys2Proof.Machine
end

section
/-! SUPPORT. The boot image producer (spec/70_reset_and_hazards.md R190 to R197): with which fault an assembly fails (O54,
O58), what the image of one that succeeds holds (O55), and the codec of R194 (O56). -/

namespace Sys2Proof.Safety

open Sys2Proof.Machine

/-! ## What `assemble` answers (R191 to R195) -/

/-- R191: the symbol table of pass 1, code from `MEM_BOT` and data after all the code. -/
def symbolTable (p : Params) (prog : List Element) : List (Label × Nat) :=
  symbolsFrom p.memBot (p.memBot + codeTotal prog) prog

/-- R193, R194: the image that pass 2 builds when every label it needs is in the table. -/
def imageOf (p : Params) (entryLabel : Label) (prog : List Element) : Image where
  entry := tableAddr (symbolTable p prog) entryLabel
  textPos := BitVec.ofNat 64 p.memBot
  dataPos := BitVec.ofNat 64 (p.memBot + codeTotal prog)
  text := (prog.flatMap codeOf).map fun i => (instrAt (tableAddr (symbolTable p prog)) i).encode
  data := (prog.flatMap itemsOf).flatMap (itemBytes (tableAddr (symbolTable p prog)))

theorem symbolTable_labels (p : Params) (prog : List Element) :
    (symbolTable p prog).map (·.1) = prog.map Element.label := symbolsFrom_labels ..

/-- R192: pass 1 finds a duplicate exactly when the labels are not distinct. -/
theorem duplicateLabel_symbolTable (p : Params) (prog : List Element) :
    duplicateLabel (symbolTable p prog) = none ↔ (prog.map Element.label).Nodup := by
  rw [duplicateLabel_eq_none, symbolTable_labels]

/-- R192: a label that is defined twice fails the assembly. -/
theorem assemble_of_duplicate (p : Params) (entryLabel : Label) {prog : List Element}
    (h : ¬(prog.map Element.label).Nodup) : ∃ l, assemble p entryLabel prog = .error (.redefinedSymbol l) := by
  obtain ⟨l, hl⟩ := Option.ne_none_iff_exists'.mp (mt (duplicateLabel_symbolTable p prog).mp h)
  rw [symbolTable] at hl
  exact ⟨l, by simp only [assemble, hl]⟩

/-- With distinct labels, an assembly is pass 2 and then the entry label. -/
theorem assemble_of_distinct (p : Params) (entryLabel : Label) {prog : List Element} (h : (prog.map Element.label).Nodup) :
    assemble p entryLabel prog = (assembleElements (symbolTable p prog) prog).bind fun out =>
      (addressOf (symbolTable p prog) entryLabel).map fun entry =>
        { entry := entry, textPos := BitVec.ofNat 64 p.memBot, dataPos := BitVec.ofNat 64 (p.memBot + codeTotal prog),
          text := out.1, data := out.2 } := by
  have hd := (duplicateLabel_symbolTable p prog).mpr h
  rw [symbolTable] at hd ⊢
  simp only [assemble, hd]
  cases assembleElements _ prog with
  | error f => rfl
  | ok out => cases addressOf _ entryLabel <;> rfl

/-- R193, R195: with distinct labels, the entry label and the labels referred to decide the assembly. -/
theorem assemble_resolves (p : Params) (entryLabel : Label) {prog : List Element} (h : (prog.map Element.label).Nodup) :
    Resolves (symbolTable p prog) (entryLabel :: prog.flatMap labelsIn) (assemble p entryLabel prog)
      (imageOf p entryLabel prog) := by
  rw [assemble_of_distinct p entryLabel h]
  rcases assembleElements_resolves (symbolTable p prog) prog with ⟨hdef, hout⟩ | ⟨l, hl, hundef, hout⟩
  · rcases addressOf_cases (symbolTable p prog) entryLabel with ⟨hentry, haddr⟩ | ⟨hentry, haddr⟩
    · exact .inl ⟨List.forall_mem_cons.mpr ⟨hentry, hdef⟩, by rw [hout, haddr]; rfl⟩
    · exact .inr ⟨entryLabel, List.mem_cons_self, hentry, by rw [hout, haddr]; rfl⟩
  · exact .inr ⟨l, List.mem_cons_of_mem _ hl, hundef, by rw [hout]; rfl⟩

/-- Settles O54: the search for a duplicate comes before everything else. -/
theorem duplicateLabelsFailAssembly : Obligations.DuplicateLabelsFailAssembly := by
  unfold Obligations.DuplicateLabelsFailAssembly
  exact fun p entryLabel _ h => assemble_of_duplicate p entryLabel h

/-- Settles O58: the two clauses are the two cases of `assemble_resolves`. -/
theorem referencesDecideAssembly : Obligations.ReferencesDecideAssembly := by
  unfold Obligations.ReferencesDecideAssembly
  intro p entryLabel prog h
  have hres := assemble_resolves p entryLabel h
  rw [Resolves, symbolTable_labels] at hres
  rcases hres with ⟨hdef, hok⟩ | ⟨l, hl, hundef, herr⟩
  · exact ⟨fun _ => ⟨_, hok⟩, fun hno => absurd hdef hno⟩
  · exact ⟨fun hall => absurd (hall l hl) hundef, fun _ => ⟨l, hl, hundef, herr⟩⟩

/-! ## The image of an assembly that succeeds (R191, R193, R197) -/

/-- An assembly that succeeds has distinct labels, defines every label it needs, and gives `imageOf`. -/
theorem assemble_ok {p : Params} {entryLabel : Label} {prog : List Element} {img : Image}
    (h : assemble p entryLabel prog = .ok img) :
    (prog.map Element.label).Nodup ∧ (∀ l ∈ entryLabel :: prog.flatMap labelsIn, l ∈ prog.map Element.label) ∧
      img = imageOf p entryLabel prog := by
  by_cases hnd : (prog.map Element.label).Nodup
  · have hres := assemble_resolves p entryLabel hnd
    rw [Resolves, symbolTable_labels, h] at hres
    rcases hres with ⟨hdef, hok⟩ | ⟨_, _, _, herr⟩
    · exact ⟨hnd, hdef, Except.ok.inj hok⟩
    · cases herr
  · obtain ⟨l, hl⟩ := assemble_of_duplicate p entryLabel hnd
    cases h.symm.trans hl

/-- R191: with distinct labels, the table has each label at the address of its element. -/
theorem tableAddr_symbolTable (p : Params) {before after : List Element} {e : Element}
    (h : ((before ++ e :: after).map Element.label).Nodup) :
    tableAddr (symbolTable p (before ++ e :: after)) e.label =
      BitVec.ofNat 64 (elementAddress p (before ++ e :: after) before e) := by
  have hnew : e.label ∉ before.map Element.label := fun hm => by
    rw [List.map_append, List.nodup_append] at h
    obtain ⟨_, _, hdisjoint⟩ := h
    exact hdisjoint _ hm _ List.mem_cons_self rfl
  rw [symbolTable, codeTotal_eq, tableAddr_symbolsFrom _ _ _ _ _ hnew]
  obtain ⟨label, body⟩ := e
  cases body <;> rfl

/-- Settles O55: the addresses of the labels are those of the symbol table. -/
theorem assembledImagesAreLaidOut : Obligations.AssembledImagesAreLaidOut := by
  unfold Obligations.AssembledImagesAreLaidOut
  intro p entryLabel prog img h
  obtain ⟨hnd, hdef, rfl⟩ := assemble_ok h
  have hlen : (imageOf p entryLabel prog).text.length = (prog.flatMap codeOf).length := List.length_map _
  refine ⟨rfl, ?_, hlen, hnd, hdef, tableAddr (symbolTable p prog), fun before after e he => ?_, rfl, rfl, rfl⟩
  · rw [hlen, ← codeTotal_eq, imageOf]
  · subst he
    exact tableAddr_symbolTable p hnd

/-! ## The codec (R194) -/

/-- R194: the 8 bytes of a word, as a list, give the word back. -/
theorem wordOfBytes_quadBytes (v : Word) : wordOfBytes (fun i => (quadBytes v).getD i 0) = v :=
  word_ext fun i hi => by
    rw [byteOf_wordOfBytes _ hi, List.getD_eq_getElem?_getD, quadBytes_getElem? v hi, Option.getD_some]

/-- R194: a text literal's bytes are its characters and a zero. -/
theorem textBytes_shape (s : List Byte) :
    (textBytes s).length = s.length + 1 ∧ (textBytes s).take s.length = s ∧ (textBytes s).getLast? = some 0 :=
  ⟨List.length_append, List.take_left, List.getLast?_concat⟩

/-- Settles O56: each clause is a law of the codec. -/
theorem codecRoundTrips : Obligations.CodecRoundTrips := by
  unfold Obligations.CodecRoundTrips
  exact ⟨fun v => ⟨quadBytes_length v, wordOfBytes_quadBytes v⟩, textBytes_shape, fun _ => rfl⟩

end Sys2Proof.Safety
end
